-- ==== Sys2Proof/Word.lean ====
section
/-! DEFINITION. The words of the block and the operand vocabulary of its records (00_scope.md R7, R12;
30_encoding.md R60, R62). -/

namespace Sys2Proof

/-- A byte of a record or of program memory (R7). -/
abbrev Byte := BitVec 8

/-- A Value as the 16-bit two's-complement pattern that ACC, BAK, OPA and the port data path hold (R6 `VWIDTH`, R14, R79). -/
abbrev Value := BitVec 16

/-- A record read as the 32-bit big-endian word `W = b0:b1:b2:b3` (R7, R56). -/
abbrev Record := BitVec 32

/-- The four selectors (R62). The byte values stand in `Sys2Proof.selectorByte`. -/
inductive Selector where
  | last
  | accumulator
  | upPort
  | downPort
deriving DecidableEq, Repr

/-- Operand A as the decoder gives it (R60): the literal Value of `b1:b2`, or the raw selector byte `b2`, whose
legality is checked only when an instruction uses it (R67, R71). -/
inductive Operand where
  | lit (v : Value)
  | sel (b : Byte)
deriving DecidableEq, Repr

end Sys2Proof
end

