-- ==== Sys2Proof/Config.lean ====
section
/-! DEFINITION. What the spec fixes for the block and the parameters it leaves to a model (00_scope.md R6). There is no free
value here: what the spec leaves open is a parameter or an input, and both are plain fields of State (log entries 3 to 6). -/

namespace Sys2Proof

/-- `VMIN`: the least Value (R6). -/
def vmin : Int := -999

/-- `VMAX`: the greatest Value (R6). -/
def vmax : Int := 999

/-- A pattern stands for a Value when it reads, as a signed 16-bit number, inside `[VMIN, VMAX]` (R76). -/
abbrev Value.InRange (v : Value) : Prop := vmin ≤ v.toInt ∧ v.toInt ≤ vmax

/-- `DOWN_READ_MODE`: what a read of `DownPort` does (R6, R44, D5). -/
inductive DownReadMode where
  | aliasUpRecordDown
  | aliasUpRecordUp
  | readDown
deriving DecidableEq, Repr

/-- `JRO_NEG_POLICY`: what JRO does with a negative ACC (R6, R119, D6). -/
inductive JroNegPolicy where
  | fault
  | clampZero
  | wrapModLen
  | castUnsigned
deriving DecidableEq, Repr

end Sys2Proof
end

