-- ==== Sys2Proof/Machine/Flags.lean ====
section
/-! DEFINITION. The block has no flags (10_state.md R20). What the conditional jumps test instead are the four tests on ACC of
the value unit, signed comparisons with 0 (40_value_unit.md R85). -/

namespace Sys2Proof.Machine

/-- R85 `isZero`. -/
def isZero (a : Value) : Bool := decide (a.toInt = 0)

/-- R85 `isNonZero`. -/
def isNonZero (a : Value) : Bool := decide (a.toInt ≠ 0)

/-- R85 `isPos`. -/
def isPos (a : Value) : Bool := decide (a.toInt > 0)

/-- R85 `isNeg`. -/
def isNeg (a : Value) : Bool := decide (a.toInt < 0)

end Sys2Proof.Machine
end

