-- ==== Sys2Proof/Machine/ValueUnit.lean ====
section
/-! DEFINITION. The saturating value unit (40_value_unit.md): exact integer arithmetic, then the clamp, then the 16-bit pattern. The
laws R88 lists of `clamp`, `fromBytes`, `addValue`, `subValue` and `negateValue` are stated in `Obligations.ValueUnitLaws`. -/

namespace Sys2Proof.Machine

/-- R77 `clamp`, the source's `fromLiteral`. -/
def clamp (n : Int) : Int :=
  if n > vmax then vmax else if n < vmin then vmin else n

/-- The pattern of the Value `clamp n` (R77, R79). -/
def ofClamped (n : Int) : Value := BitVec.ofInt 16 (clamp n)

/-- The Value of a 16-bit pattern: read as two's complement, then clamped (R78). Every port read goes through it (R49). R134's list of
console patterns gives -999 for the first bytes 0xFD, 0xFE and 0xFF too, where R78 gives -768, -512 and -256: the spec conflicts with
itself there and 90_conflicts.md does not name it. The list is marked derived from R49 and R78, which by R10 means that it follows from
them, so the model follows those rules (DESIGN CHOICE, log entry 17). -/
def fromPattern (u : BitVec 16) : Value := ofClamped u.toInt

/-- R78 `fromBytes`. -/
def fromBytes (hi lo : Byte) : Value := fromPattern (hi ++ lo)

/-- R79 `toBytes`: the pattern's high and low byte. -/
def toBytes (v : Value) : Byte × Byte := (v.extractLsb' 8 8, v.extractLsb' 0 8)

/-- R81 `add`. The field-free name `add` is left to BitVec. -/
def addValue (a b : Value) : Value := ofClamped (a.toInt + b.toInt)

/-- R82 `sub`: the left operand minus the right one. -/
def subValue (a b : Value) : Value := ofClamped (a.toInt - b.toInt)

/-- R83 `negate`. -/
def negateValue (a : Value) : Value := ofClamped (-a.toInt)

/-- R84 `compare`: the order of the integers. -/
def compareValue (a b : Value) : Ordering := compare a.toInt b.toInt

/-- The operation select of the unit's interface (R90); its encoding is internal. -/
inductive ValueOp where
  | add
  | sub
  | negate
  | fromBytes
  | pass
deriving DecidableEq, Repr

/-- What the unit puts out: one Value and the four test bits of its input `a` (R90). -/
structure ValueOut where
  result : Value
  zero : Bool
  nonZero : Bool
  pos : Bool
  neg : Bool
deriving DecidableEq, Repr

/-- R90: the unit as one combinational block over two patterns; `fromBytes` and `pass` look at `a` alone. -/
def valueUnit (op : ValueOp) (a b : Value) : ValueOut where
  result :=
    match op with
    | .add => addValue a b
    | .sub => subValue a b
    | .negate => negateValue a
    | .fromBytes => fromPattern a
    | .pass => a
  zero := isZero a
  nonZero := isNonZero a
  pos := isPos a
  neg := isNeg a

end Sys2Proof.Machine
end

