-- ==== Sys2Proof/Syntax.lean ====
section
/-! DEFINITION. The thirteen instructions, one constructor per row of spec/opcode_table.json (00_scope.md R3,
30_encoding.md R65, R68). A constructor carries the fields its opcode reads and no other (R69). -/

namespace Sys2Proof

/-- The closed instruction set (R3). `t` is the packed jump target (R63). -/
inductive Instr where
  | nop
  | mov (a : Operand) (dst : Byte)
  | swp
  | sav
  | add (a : Operand)
  | sub (a : Operand)
  | neg
  | jmp (t : BitVec 24)
  | jez (t : BitVec 24)
  | jnz (t : BitVec 24)
  | jgz (t : BitVec 24)
  | jlz (t : BitVec 24)
  | jro
deriving DecidableEq, Repr

end Sys2Proof
end

