-- ==== Sys2Proof/WellFormed.lean ====
section
/-! DEFINITION. Which terms of the syntax stand for a decoded record (30_encoding.md R60, R72). One thing can be wrong with a
term: a literal operand that is no Value, since the decoder clamps every literal. A selector byte may hold anything: an
illegal one is a legal term that faults when it is executed (R67, R71). -/

namespace Sys2Proof

/-- A literal operand is a Value (R72); a selector byte is any byte. -/
abbrev Operand.WellFormed : Operand → Prop
  | .lit v => v.InRange
  | .sel _ => True

/-- Operand A of the instruction, for the three opcodes that have one (R68). -/
def Instr.operandA? : Instr → Option Operand
  | .mov a _ => some a
  | .add a => some a
  | .sub a => some a
  | .nop => none
  | .swp => none
  | .sav => none
  | .neg => none
  | .jmp _ => none
  | .jez _ => none
  | .jnz _ => none
  | .jgz _ => none
  | .jlz _ => none
  | .jro => none

/-- The check as a Bool, so that it can be evaluated on any term. -/
def Instr.wf (i : Instr) : Bool :=
  match i.operandA? with
  | some (.lit v) => decide v.InRange
  | some (.sel _) => true
  | none => true

/-- The instruction is one the decoder can give (R60, R72). -/
abbrev Instr.WellFormed (i : Instr) : Prop := i.wf = true

end Sys2Proof
end

