-- ==== Sys2Proof/Decode.lean ====
section
/-! DEFINITION. The decoder, total on any four bytes, and the encoder (30_encoding.md). Decoding is a pure function of the record
(R64, R73): it fills every field at once and lets the opcode pick the ones it reads (R68). -/

namespace Sys2Proof

/-- The thirteen opcodes, in the source's order (R65). -/
inductive Opcode where
  | nop | mov | swp | sav | add | sub | neg | jmp | jez | jnz | jgz | jlz | jro
deriving DecidableEq, Repr

/-- `OPCODE_MAP` (R65, D1; log entry 14): the one place that says which number is which opcode. -/
def opcodeNumber : Opcode → BitVec 4
  | .nop => 0x0
  | .mov => 0x1
  | .swp => 0x2
  | .sav => 0x3
  | .add => 0x4
  | .sub => 0x5
  | .neg => 0x6
  | .jmp => 0x7
  | .jez => 0x8
  | .jnz => 0x9
  | .jgz => 0xA
  | .jlz => 0xB
  | .jro => 0xC

/-- Every opcode once. -/
def allOpcodes : List Opcode :=
  [.nop, .mov, .swp, .sav, .add, .sub, .neg, .jmp, .jez, .jnz, .jgz, .jlz, .jro]

/-- The opcode of a number, none for the illegal ones (R57, R66). -/
def opcodeOf (n : BitVec 4) : Option Opcode := allOpcodes.find? (fun o => opcodeNumber o == n)

/-- `SELECTOR_MAP` (R62, D2; log entry 14): the one place that says which byte is which selector. -/
def selectorByte : Selector → Byte
  | .last => 0x00
  | .accumulator => 0x01
  | .upPort => 0x02
  | .downPort => 0x03

/-- Every selector once. -/
def allSelectors : List Selector := [.last, .accumulator, .upPort, .downPort]

/-- The selector of a byte, none for 0x04 to 0xFF; the whole byte is compared (R62). -/
def selectorOf (b : Byte) : Option Selector := allSelectors.find? (fun s => selectorByte s == b)

/-- Every interpretation of a record at once (R64, R71). -/
structure Fields where
  op : BitVec 4
  lit : Bool
  litval : Value
  srcsel : Byte
  dstsel : Byte
  target : BitVec 24
deriving DecidableEq, Repr

/-- The fields of the four bytes (R56, R57, R58, R61, R63, R72). Bits 7:5 of `b0` are not looked at (R59). -/
def fieldsOf (b0 b1 b2 b3 : Byte) : Fields where
  op := b0.extractLsb' 0 4
  lit := b0.getLsbD 4
  litval := Machine.fromBytes b1 b2
  srcsel := b2
  dstsel := b3
  target := b1 ++ b2 ++ b3

/-- Operand A (R60). -/
def operandOf (f : Fields) : Operand := if f.lit then .lit f.litval else .sel f.srcsel

/-- The instruction an opcode makes of the fields: it takes those R68 says it reads. -/
def instrOf (o : Opcode) (f : Fields) : Instr :=
  match o with
  | .nop => .nop
  | .mov => .mov (operandOf f) f.dstsel
  | .swp => .swp
  | .sav => .sav
  | .add => .add (operandOf f)
  | .sub => .sub (operandOf f)
  | .neg => .neg
  | .jmp => .jmp f.target
  | .jez => .jez f.target
  | .jnz => .jnz f.target
  | .jgz => .jgz f.target
  | .jlz => .jlz f.target
  | .jro => .jro

/-- The decoder's two outcomes (R71). -/
inductive Decoded where
  /-- A legal opcode. -/
  | decoded (i : Instr)
  /-- An opcode of 13, 14 or 15, with the whole byte `b0` (R66). -/
  | illegal (b0 : Byte)
deriving DecidableEq, Repr

/-- R71 `Decode(b0, b1, b2, b3)`. -/
def decodeBytes (b0 b1 b2 b3 : Byte) : Decoded :=
  match opcodeOf (fieldsOf b0 b1 b2 b3).op with
  | some o => .decoded (instrOf o (fieldsOf b0 b1 b2 b3))
  | none => .illegal b0

/-- The record's byte `k`, `b0` at the top of the big-endian word (R7). -/
def recordByte (w : Record) (k : Nat) : Byte := w.extractLsb' (24 - 8 * k) 8

/-- The word of four bytes in address order (R7, R35). -/
def recordOf (b0 b1 b2 b3 : Byte) : Record := b0 ++ b1 ++ b2 ++ b3

/-- Decoding a record latched as a word. -/
def decode (w : Record) : Decoded :=
  decodeBytes (recordByte w 0) (recordByte w 1) (recordByte w 2) (recordByte w 3)

/-- The opcode of an instruction. -/
def Instr.opcode : Instr → Opcode
  | .nop => .nop
  | .mov _ _ => .mov
  | .swp => .swp
  | .sav => .sav
  | .add _ => .add
  | .sub _ => .sub
  | .neg => .neg
  | .jmp _ => .jmp
  | .jez _ => .jez
  | .jnz _ => .jnz
  | .jgz _ => .jgz
  | .jlz _ => .jlz
  | .jro => .jro

/-- First byte of a record: reserved bits 0, the literal flag, the opcode (R56, R74). -/
def firstByte (o : Opcode) (l : Bool) : Byte := 0#3 ++ BitVec.ofBool l ++ opcodeNumber o

/-- The record of an instruction with operand A and a third byte (R74). -/
def encodeOperand (o : Opcode) (a : Operand) (b3 : Byte) : Record :=
  match a with
  | .lit v => recordOf (firstByte o true) (Machine.toBytes v).1 (Machine.toBytes v).2 b3
  | .sel b => recordOf (firstByte o false) 0 b b3

/-- The record of an instruction without operands: every field it does not read is 0 (R74). -/
def encodePlain (o : Opcode) : Record := recordOf (firstByte o false) 0 0 0

/-- The record of a jump to a packed target (R63, R74). -/
def encodeTarget (o : Opcode) (t : BitVec 24) : Record := firstByte o false ++ t

/-- R74: the record of an instruction, with every unread field and the reserved bits 0. -/
def encode : Instr → Record
  | .nop => encodePlain .nop
  | .mov a d => encodeOperand .mov a d
  | .swp => encodePlain .swp
  | .sav => encodePlain .sav
  | .add a => encodeOperand .add a 0
  | .sub a => encodeOperand .sub a 0
  | .neg => encodePlain .neg
  | .jmp t => encodeTarget .jmp t
  | .jez t => encodeTarget .jez t
  | .jnz t => encodeTarget .jnz t
  | .jgz t => encodeTarget .jgz t
  | .jlz t => encodeTarget .jlz t
  | .jro => encodePlain .jro

/-- The instruction of a table row's word: one 32-bit big-endian word `W`, bit 0 the least significant; bits at or above
`nbits` are 0. -/
def decodeTableWord (nbits w : Nat) : Option Instr :=
  match decode (BitVec.ofNat 32 (w % 2 ^ nbits)) with
  | .decoded i => some i
  | .illegal _ => none

end Sys2Proof
end

