-- ==== Sys2Proof/Machine/State.lean ====
section
/-! DEFINITION. The state of the block as plain data (10_state.md R13, R27), with the parameters and inputs a model takes
(R6, R28, R29), and its value right after reset. -/

namespace Sys2Proof.Machine

/-- A port channel (R48). LAST holds one of them, never the accumulator (R17). -/
inductive Port where
  | up
  | down
deriving DecidableEq, Repr

/-- STATUS.RUN_STATE (R21); the value 3 is reserved and never produced (log entry 12). -/
inductive RunState where
  | running
  | halted
  | faulted
deriving DecidableEq, Repr

/-- STATUS.FAULT_CODE (R22, R122); the values 6 and 7 are never produced (log entry 12). -/
inductive FaultCode where
  | noFault
  | decodeError
  | portError
  | selectorError
  | fetchBoundsError
  | jroRangeError
deriving DecidableEq, Repr

/-- PHASE, the hidden sequencing state (R24). -/
inductive Phase where
  | ready
  | waitSrc
  | waitDst
deriving DecidableEq, Repr

/-- A transaction the core issues on a channel: a read, or a write of a 16-bit pattern (R48). -/
inductive Request where
  | read (p : Port)
  | write (p : Port) (u : BitVec 16)
deriving DecidableEq, Repr

/-- A device's answer (R48): `Ok`, with the pattern that a read takes in (a write does not look at it, log entry 13), or
`Err` with the opaque 32-bit kind (D12). -/
inductive Reply where
  | ok (u : BitVec 16)
  | err (k : BitVec 32)
deriving DecidableEq, Repr

/-- A completed transaction: what the core asked and what the device answered (R52, R140; log entry 7). -/
structure Transaction where
  request : Request
  reply : Reply
deriving DecidableEq, Repr

/-- Everything the spec gives the machine (R13), then the parameters and inputs of a model (R6, R28, R29), then the model's own
`replies` and `log`. -/
structure State where
  /-- ACC (R14). -/
  acc : Value
  /-- BAK (R16). -/
  bak : Value
  /-- LAST (R17). -/
  last : Port
  /-- PC, a byte offset into the program (R18). -/
  pc : BitVec 32
  /-- STATUS.RUN_STATE (R21). -/
  runState : RunState
  /-- STATUS.FAULT_CODE (R22). -/
  faultCode : FaultCode
  /-- STATUS.FAULT_INFO (R23). -/
  faultInfo : BitVec 64
  /-- PHASE (R24). -/
  phase : Phase
  /-- IR (R25). -/
  ir : Record
  /-- OPA (R25). -/
  opa : Value
  /-- PROG (R28, R31): the program's bytes that are not 0, by rising address (log entry 11). -/
  prog : List Host.Cell
  /-- PROG_LEN (R6, R28). -/
  progLen : BitVec 32
  /-- DOWN_READ_MODE (R6). -/
  downReadMode : DownReadMode
  /-- JRO_NEG_POLICY (R6). -/
  jroNegPolicy : JroNegPolicy
  /-- What the port devices will do, one entry for each step the core holds: an answer, or none in that step; when the list
  is empty they never answer (R48, R50; log entry 6). -/
  replies : List (Option Reply)
  /-- The transactions completed in this run, oldest first (R140; log entry 7). -/
  log : List Transaction
deriving DecidableEq, Repr

/-- Why the Lean step stops. A fault of the block (R122) is none of these: it is a next state with STATUS written. -/
inductive Fault where
  /-- Raised by the sequencer and by MOV, ADD and SUB in a state whose PHASE says that a port transaction is outstanding while
  IR names no instruction that made one. Safe: no run reaches such a state, and the spec gives it no meaning (log entry 10). -/
  | noAccess
deriving DecidableEq, Repr

/-- Why the Lean step refuses an instruction. -/
inductive Refusal where
  /-- An arm of exec whose instruction has no meaning yet. Safe. No arm of this model answers it. -/
  | notModelled (mnemonic : String)
deriving DecidableEq, Repr

/-- Right after reset (R27, R141), with nothing supplied by the host yet (R28; log entries 3 to 7). IR and OPA, which R27 leaves
unspecified, are 0 (log entries 1 and 2). -/
def State.reset : State where
  acc := 0
  bak := 0
  last := .down
  pc := 0
  runState := .running
  faultCode := .noFault
  faultInfo := 0
  phase := .ready
  ir := 0
  opa := 0
  prog := []
  progLen := 0
  downReadMode := .aliasUpRecordDown
  jroNegPolicy := .fault
  replies := []
  log := []

end Sys2Proof.Machine
end

