-- ==== Sys2Proof/Machine/Memory.lean ====
section
/-! DEFINITION. Program memory as a canonical list of cells: rising addresses, no cell that holds what an unlisted address reads as
(20_memory.md R30, R31). No instruction writes it (R32); `Memory.write` is the host's load. -/

namespace Sys2Proof.Machine

/-- What an address that the list does not name holds (log entry 11). -/
def Memory.unlisted : Byte := 0

/-- The byte at an address. -/
def Memory.get : List Host.Cell → Nat → Byte
  | [], _ => Memory.unlisted
  | c :: m, a => if c.1 = a then c.2 else Memory.get m a

/-- Bytes at consecutive addresses, in address order (R31). -/
def Memory.getBytes (m : List Host.Cell) (a : Nat) : Nat → List Byte
  | 0 => []
  | n + 1 => Memory.get m a :: Memory.getBytes m (a + 1) n

/-- A cell put in front, but for the byte an unlisted address already holds. -/
def Memory.cons (a : Nat) (b : Byte) (m : List Host.Cell) : List Host.Cell :=
  if b = Memory.unlisted then m else (a, b) :: m

/-- The list with the byte at one address replaced, in canonical form again. -/
def Memory.write : List Host.Cell → Nat → Byte → List Host.Cell
  | [], a, b => Memory.cons a b []
  | c :: m, a, b =>
    if a < c.1 then Memory.cons a b (c :: m)
    else if a = c.1 then Memory.cons a b m
    else c :: Memory.write m a b

/-- Consecutive bytes written from an address on. -/
def Memory.writeBytes (m : List Host.Cell) (a : Nat) : List Byte → List Host.Cell
  | [] => m
  | b :: bs => Memory.writeBytes (Memory.write m a b) (a + 1) bs

/-- From `lo` on the addresses rise strictly and no cell holds the unlisted byte. -/
def Memory.risingFrom (lo : Nat) : List Host.Cell → Bool
  | [] => true
  | c :: m => decide (lo ≤ c.1) && c.2 != Memory.unlisted && Memory.risingFrom (c.1 + 1) m

/-- The canonical form. -/
def Memory.wf (m : List Host.Cell) : Bool := Memory.risingFrom 0 m

/-- No cell lies at or past the end of the program, where there is no byte (R31). -/
def Memory.below (n : Nat) (m : List Host.Cell) : Bool := m.all (fun c => decide (c.1 < n))

end Sys2Proof.Machine
end

