-- ==== Sys2Proof/Machine/Status.lean ====
section
/-! DEFINITION. The numbers of STATUS and LAST and the packing of FAULT_INFO (10_state.md R17, R21, R22; 60_exceptions.md R122,
R123). -/

namespace Sys2Proof.Machine

/-- LAST's bit, and the channel bit of a PORT_ERROR record (R17, R123). -/
def portBit : Port → BitVec 1
  | .up => 0
  | .down => 1

/-- RUN_STATE as the host reads it (R21). -/
def runStateBits : RunState → BitVec 2
  | .running => 0
  | .halted => 1
  | .faulted => 2

/-- FAULT_CODE as the host reads it (R22, R122). -/
def faultCodeBits : FaultCode → BitVec 3
  | .noFault => 0
  | .decodeError => 1
  | .portError => 2
  | .selectorError => 3
  | .fetchBoundsError => 4
  | .jroRangeError => 5

/-- A port access's direction (R123). -/
inductive Direction where
  | read
  | write
deriving DecidableEq, Repr

/-- The direction's bit (R123). -/
def directionBit : Direction → BitVec 1
  | .read => 0
  | .write => 1

/-- The selector field a record got wrong (R67, R123). -/
inductive SelField where
  | src
  | dst
deriving DecidableEq, Repr

/-- The field's bit (R123). -/
def selFieldBit : SelField → BitVec 1
  | .src => 0
  | .dst => 1

/-- DECODE_ERROR: `[7:0]` the whole byte `b0` (R123, R66). -/
def decodeInfo (b0 : Byte) : BitVec 64 := b0.setWidth 64

/-- PORT_ERROR: `[0]` channel used, `[1]` direction, `[63:32]` the device's error kind (R123). -/
def portInfo (ch : Port) (dir : Direction) (k : BitVec 32) : BitVec 64 := k ++ 0#30 ++ directionBit dir ++ portBit ch

/-- SELECTOR_ERROR: `[7:0]` the byte, `[8]` the field (R123). -/
def selectorInfo (f : SelField) (b : Byte) : BitVec 64 := 0#55 ++ selFieldBit f ++ b

/-- FETCH_BOUNDS_ERROR: `[31:0]` PC, `[63:32]` PROG_LEN (R123). -/
def boundsInfo (pc len : BitVec 32) : BitVec 64 := len ++ pc

/-- JRO_RANGE_ERROR: `[15:0]` the pattern of ACC (R123). -/
def jroInfo (a : Value) : BitVec 64 := a.setWidth 64

/-- The fields of STATUS as numbers (R21 to R23). -/
structure Status where
  runState : BitVec 2
  faultCode : BitVec 3
  faultInfo : BitVec 64
deriving DecidableEq, Repr

/-- What the register STATUS holds (R21 to R23). The host reads it through `State.observe` alone, after the run (R136, R138). -/
def State.status (s : State) : Status where
  runState := runStateBits s.runState
  faultCode := faultCodeBits s.faultCode
  faultInfo := s.faultInfo

end Sys2Proof.Machine
end

