-- ==== Sys2Proof/Machine/Ops.lean ====
section
/-! DEFINITION. The named operations over the state: reading program memory, the end of a run, taking a fault (the block's one
exception entry, R124), holding and completing (R98, R100, R101). There is no return from a fault: only reset leaves it (R128),
and that is `State.hostReset`. -/

namespace Sys2Proof.Machine

/-- The block built with other parameters (R6). They are arguments of the model, chosen before any run: this is no act of the host,
whose acts R138 lists (log entries 4 and 5). -/
def State.withParameters (s : State) (mode : DownReadMode) (policy : JroNegPolicy) : State :=
  { s with downReadMode := mode, jroNegPolicy := policy }

/-- The byte of the program at an offset; there is none at or past PROG_LEN (R31). -/
def State.byteAt (s : State) (a : Nat) : Option Byte :=
  if a < s.progLen.toNat then some (Memory.get s.prog a) else none

/-- R31 `MemRead(addr, n)`, defined only when the bytes lie in the program. -/
def State.memRead (s : State) (a n : Nat) : Option (List Byte) :=
  if a + n ≤ s.progLen.toNat then some (Memory.getBytes s.prog a n) else none

/-- What the start of an instruction step finds at PC (R37). -/
inductive Fetched where
  | atEnd
  | truncated
  | record (w : Record)
deriving DecidableEq, Repr

/-- R37, R92, R93, R94: the end of the program, a record that runs past it, or the four bytes at PC. -/
def State.fetch (s : State) : Fetched :=
  if s.progLen.toNat ≤ s.pc.toNat then .atEnd
  else
    match s.memRead s.pc.toNat 4 with
    | some [b0, b1, b2, b3] => .record (recordOf b0 b1 b2 b3)
    | _ => .truncated

/-- R92: the normal end of a run; nothing else changes. -/
def State.halt (s : State) : State := { s with runState := .halted }

/-- R124 `raise Fault(code, info)`: STATUS is written, PHASE returns to READY, everything else keeps its value. -/
def State.raiseFault (s : State) (c : FaultCode) (info : BitVec 64) : State :=
  { s with runState := .faulted, faultCode := c, faultInfo := info, phase := .ready }

/-- R67, R96: SELECTOR_ERROR for a field and its byte. -/
def State.raiseSelector (s : State) (f : SelField) (b : Byte) : State :=
  s.raiseFault .selectorError (selectorInfo f b)

/-- R98: `PC <- PC + 4`, the last action of an instruction that does not jump. -/
def State.advance (s : State) : State := { s with pc := s.pc + 4 }

/-- R100: the core waits for a device. -/
def State.hold (s : State) (p : Phase) : State := { s with phase := p }

/-- R101: an instruction that may have held completes: PHASE returns to READY and PC advances. -/
def State.complete (s : State) : State := { s with phase := .ready, pc := s.pc + 4 }

/-- The state once a device has answered: the entry of `replies` is used up and the transaction is on record. -/
def State.answered (s : State) (q : Request) (r : Reply) (rest : List (Option Reply)) : State :=
  { s with replies := rest, log := s.log ++ [⟨q, r⟩] }

end Sys2Proof.Machine
end

