-- ==== Sys2Proof/Machine/Operands.lean ====
section
/-! DEFINITION. The port addressing resolver and the operand forms (20_memory.md R40 to R51; 41_fetch_execute.md R96, R99 to R101). An
access to a port is split where the core holds: the issue of the transaction, then the device's answer. -/

namespace Sys2Proof.Machine

/-- Where operand A comes from. -/
inductive Source where
  /-- A literal or ACC: here at once. -/
  | value (v : Value)
  /-- A port read: the channel it uses and the port LAST takes when it succeeds. -/
  | port (ch rec : Port)
  /-- A selector byte that names nothing. -/
  | illegal (b : Byte)
deriving DecidableEq, Repr

/-- Where a MOV puts its Value. -/
inductive Dest where
  | acc
  | port (p : Port)
  | illegal (b : Byte)
deriving DecidableEq, Repr

/-- R43, R44: the channel a read of a port selector uses and the port it records. -/
def readPort (mode : DownReadMode) : Port → Source
  | .up => .port .up .up
  | .down =>
    match mode with
    | .aliasUpRecordDown => .port .up .down
    | .aliasUpRecordUp => .port .up .up
    | .readDown => .port .down .down

/-- R41 to R44: what a read through a selector reaches; `Last` goes to the port in LAST. -/
def readSelector (s : State) : Selector → Source
  | .last => readPort s.downReadMode s.last
  | .accumulator => .value s.acc
  | .upPort => readPort s.downReadMode .up
  | .downPort => readPort s.downReadMode .down

/-- R45 to R47: what a write through a selector reaches; writes are never aliased. -/
def writeSelector (s : State) : Selector → Dest
  | .last => .port s.last
  | .accumulator => .acc
  | .upPort => .port .up
  | .downPort => .port .down

/-- R60, R99: operand A, with the check of R96 on a selector byte. -/
def sourceOf (s : State) : Operand → Source
  | .lit v => .value v
  | .sel b =>
    match selectorOf b with
    | some x => readSelector s x
    | none => .illegal b

/-- R61: the destination, with the check of R96 on its byte. -/
def destOf (s : State) (b : Byte) : Dest :=
  match selectorOf b with
  | some x => writeSelector s x
  | none => .illegal b

/-- The port transaction the core waits for, if it holds (R24, R48, R52). -/
def State.outstanding (s : State) : Option Request :=
  match s.phase, decode s.ir with
  | .waitSrc, .decoded i =>
    match i.operandA? with
    | some a =>
      match sourceOf s a with
      | .port ch _ => some (.read ch)
      | .value _ => none
      | .illegal _ => none
    | none => none
  | .waitDst, .decoded (.mov _ d) =>
    match destOf s d with
    | .port p => some (.write p s.opa)
    | .acc => none
    | .illegal _ => none
  | _, _ => none

/-- R100, R101 for a read of channel `ch`: hold while no answer comes, fault on `Err`, and on `Ok` record LAST and go on with the
clamped Value (R43, R44, R49). -/
def awaitRead (s : State) (ch rec : Port) (resume : State → Value → State) : State :=
  match s.replies with
  | [] => s
  | none :: rest => { s with replies := rest }
  | some (.err k) :: rest =>
    (s.answered (.read ch) (.err k) rest).raiseFault .portError (portInfo ch .read k)
  | some (.ok u) :: rest =>
    resume { s.answered (.read ch) (.ok u) rest with last := rec } (fromPattern u)

/-- R100, R101 for a write of OPA to channel `p`: hold, fault on `Err`, and on `Ok` record LAST and complete (R47). -/
def awaitWrite (s : State) (p : Port) : State :=
  match s.replies with
  | [] => s
  | none :: rest => { s with replies := rest }
  | some (.err k) :: rest =>
    (s.answered (.write p s.opa) (.err k) rest).raiseFault .portError (portInfo p .write k)
  | some (.ok u) :: rest =>
    { s.answered (.write p s.opa) (.ok u) rest with last := p }.complete

end Sys2Proof.Machine
end

