-- ==== Sys2Proof/Machine/Arithmetic.lean ====
section
/-! DEFINITION. ADD, SUB, NEG (43_arithmetic.md). -/

namespace Sys2Proof.Machine

/-- R109, R110, from the moment operand A is known: ACC is read now, after the operand (R103). -/
def accumulate (f : Value → Value → Value) (s : State) (v : Value) : State :=
  { s with acc := f s.acc v }.complete

/-- The shape ADD and SUB share (R109, R110): check the selector, take operand A or issue its port read, and go on with the
answer. -/
def arithmetic (f : Value → Value → Value) (a : Operand) (s : State) : Host.Outcome State Fault Refusal :=
  match s.phase with
  | .ready =>
    match sourceOf s a with
    | .illegal b => .next (s.raiseSelector .src b)
    | .value v => .next (accumulate f s v)
    | .port _ _ => .next (s.hold .waitSrc)
  | .waitSrc =>
    match sourceOf s a with
    | .port ch rec => .next (awaitRead s ch rec (accumulate f))
    | .value _ => .fault .noAccess
    | .illegal _ => .fault .noAccess
  | .waitDst => .fault .noAccess

/-- R109. -/
def execAdd (a : Operand) (s : State) : Host.Outcome State Fault Refusal := arithmetic addValue a s

/-- R110. -/
def execSub (a : Operand) (s : State) : Host.Outcome State Fault Refusal := arithmetic subValue a s

/-- R111. -/
def execNeg (s : State) : Host.Outcome State Fault Refusal :=
  .next { s with acc := negateValue s.acc }.advance

end Sys2Proof.Machine
end

