-- ==== Sys2Proof/Machine/ControlTransfer.lean ====
section
/-! DEFINITION. JMP, JEZ, JNZ, JGZ, JLZ, JRO (44_control_transfer.md). -/

namespace Sys2Proof.Machine

/-- R112: `PC <- T`, the packed target verbatim. -/
def State.jumpTo (s : State) (t : BitVec 24) : State := { s with pc := t.setWidth 32 }

/-- R113: the target when the condition holds, else the next record. -/
def State.jumpIf (s : State) (c : Bool) (t : BitVec 24) : State := if c then s.jumpTo t else s.advance

/-- R114. -/
def execJmp (t : BitVec 24) (s : State) : Host.Outcome State Fault Refusal := .next (s.jumpTo t)

/-- R115. -/
def execJez (t : BitVec 24) (s : State) : Host.Outcome State Fault Refusal := .next (s.jumpIf (isZero s.acc) t)

/-- R116. -/
def execJnz (t : BitVec 24) (s : State) : Host.Outcome State Fault Refusal := .next (s.jumpIf (isNonZero s.acc) t)

/-- R117. -/
def execJgz (t : BitVec 24) (s : State) : Host.Outcome State Fault Refusal := .next (s.jumpIf (isPos s.acc) t)

/-- R118. -/
def execJlz (t : BitVec 24) (s : State) : Host.Outcome State Fault Refusal := .next (s.jumpIf (isNeg s.acc) t)

/-- R119 `JroTarget`: an absolute offset, or none where the policy is to fault. A record that executes leaves PROG_LEN at least 4,
so the remainder of `wrapModLen` is by a positive number in every step (log entry 5). -/
def jroTarget (policy : JroNegPolicy) (len : BitVec 32) (a : Value) : Option (BitVec 32) :=
  if 0 ≤ a.toInt then some (BitVec.ofInt 32 a.toInt)
  else
    match policy with
    | .fault => none
    | .clampZero => some 0
    | .wrapModLen => some (BitVec.ofInt 32 (a.toInt % (len.toNat : Int)))
    | .castUnsigned => some (BitVec.ofInt 32 a.toInt)

/-- R119: jump to the offset in ACC, or JRO_RANGE_ERROR. -/
def execJro (s : State) : Host.Outcome State Fault Refusal :=
  match jroTarget s.jroNegPolicy s.progLen s.acc with
  | some t => .next { s with pc := t }
  | none => .next (s.raiseFault .jroRangeError (jroInfo s.acc))

end Sys2Proof.Machine
end

