-- ==== Sys2Proof/Machine/DataMovement.lean ====
section
/-! DEFINITION. NOP, MOV, SWP, SAV (42_data_movement.md). Only MOV can hold, so only MOV looks at PHASE (log entry 15). -/

namespace Sys2Proof.Machine

/-- R105. -/
def execNop (s : State) : Host.Outcome State Fault Refusal := .next s.advance

/-- R106, from the moment operand A is known: OPA takes it, then it is resolve-written, with LAST as it is now (R45). A write to
a port is issued and the core holds (R101). -/
def movStore (d : Byte) (s : State) (v : Value) : State :=
  match destOf s d with
  | .acc => { s with opa := v, acc := v }.complete
  | .port _ => { s with opa := v }.hold .waitDst
  | .illegal b => s.raiseSelector .dst b

/-- R106. From READY: both selectors are checked first, the source before the destination (R96); then operand A is taken, or its
port read issued. While it holds, the device's answer is awaited and the rule goes on from there (R101). -/
def execMov (a : Operand) (d : Byte) (s : State) : Host.Outcome State Fault Refusal :=
  match s.phase with
  | .ready =>
    match sourceOf s a, destOf s d with
    | .illegal b, _ => .next (s.raiseSelector .src b)
    | _, .illegal b => .next (s.raiseSelector .dst b)
    | .value v, _ => .next (movStore d s v)
    | .port _ _, _ => .next (s.hold .waitSrc)
  | .waitSrc =>
    match sourceOf s a with
    | .port ch rec => .next (awaitRead s ch rec (movStore d))
    | .value _ => .fault .noAccess
    | .illegal _ => .fault .noAccess
  | .waitDst =>
    match destOf s d with
    | .port p => .next (awaitWrite s p)
    | .acc => .fault .noAccess
    | .illegal _ => .fault .noAccess

/-- R107: both are read before either is written. -/
def execSwp (s : State) : Host.Outcome State Fault Refusal :=
  .next { s with acc := s.bak, bak := s.acc }.advance

/-- R108. -/
def execSav (s : State) : Host.Outcome State Fault Refusal :=
  .next { s with bak := s.acc }.advance

end Sys2Proof.Machine
end

