-- ==== Sys2Proof/Machine/Dispatch.lean ====
section
/-! DEFINITION. exec: one arm per instruction (41_fetch_execute.md R97). -/

namespace Sys2Proof.Machine

def exec (i : Instr) (s : State) : Host.Outcome State Fault Refusal :=
  match i with
  | .nop => Sys2Proof.Machine.execNop s
  | .mov a d => Sys2Proof.Machine.execMov a d s
  | .swp => Sys2Proof.Machine.execSwp s
  | .sav => Sys2Proof.Machine.execSav s
  | .add a => Sys2Proof.Machine.execAdd a s
  | .sub a => Sys2Proof.Machine.execSub a s
  | .neg => Sys2Proof.Machine.execNeg s
  | .jmp t => Sys2Proof.Machine.execJmp t s
  | .jez t => Sys2Proof.Machine.execJez t s
  | .jnz t => Sys2Proof.Machine.execJnz t s
  | .jgz t => Sys2Proof.Machine.execJgz t s
  | .jlz t => Sys2Proof.Machine.execJlz t s
  | .jro => Sys2Proof.Machine.execJro s

end Sys2Proof.Machine
end

