-- ==== Sys2Proof/Machine/Sequencer.lean ====
section
/-! DEFINITION. What a step does before and around the instruction's own effect: halt, fetch, decode, or take up the instruction
that holds (41_fetch_execute.md R91 to R95, R101, R103, R104). -/

namespace Sys2Proof.Machine

/-- What a step comes to. -/
inductive Action where
  /-- The step is over without an instruction: the next state. -/
  | settle (t : State)
  /-- The instruction's own effect, from this state. -/
  | execute (i : Instr) (t : State)
  /-- PHASE says the core holds, and there is no transaction to hold for (log entry 10). -/
  | stuck
deriving DecidableEq, Repr

/-- R92 to R95: an instruction step up to the dispatch. IR latches the record (R94). -/
def State.begin (s : State) : Action :=
  match s.fetch with
  | .atEnd => .settle s.halt
  | .truncated => .settle (s.raiseFault .fetchBoundsError (boundsInfo s.pc s.progLen))
  | .record w =>
    match decode w with
    | .decoded i => .execute i { s with ir := w }
    | .illegal b0 => .settle ({ s with ir := w }.raiseFault .decodeError (decodeInfo b0))

/-- R101: a resume step goes on with the instruction in IR. -/
def State.resume (s : State) : Action :=
  match decode s.ir, s.outstanding with
  | .decoded i, some _ => .execute i s
  | .decoded _, none => .stuck
  | .illegal _, _ => .stuck

/-- R91, R104: an instruction step from READY, a resume step while the core holds, nothing after the end of the run (log
entry 8). -/
def State.action (s : State) : Action :=
  match s.runState with
  | .running =>
    match s.phase with
    | .ready => s.begin
    | .waitSrc => s.resume
    | .waitDst => s.resume
  | .halted => .settle s
  | .faulted => .settle s

/-- A record's four bytes put at PC, and the program long enough to hold them (for `State.withFetchWord`). -/
def State.placeAtPc (s : State) (w : Record) : State :=
  { s with
    prog := Memory.writeBytes s.prog s.pc.toNat [recordByte w 0, recordByte w 1, recordByte w 2, recordByte w 3]
    progLen := BitVec.ofNat 32 (max s.progLen.toNat (s.pc.toNat + 4))
    runState := .running
    phase := .ready }

end Sys2Proof.Machine
end

