-- ==== Sys2Proof/Machine/Step.lean ====
section
/-! DEFINITION. One step of the core, and the host's way to place an instruction where the next step fetches it. -/

namespace Sys2Proof.Machine

/-- One step (41_fetch_execute.md R91, R103). -/
def step (s : State) : Host.Outcome State Fault Refusal :=
  match s.action with
  | .settle t => .next t
  | .execute i t => exec i t
  | .stuck => .fault .noAccess

/-- The state with the record of a table row at PC, as its four big-endian bytes, in a program long enough to hold it and a core that
is about to fetch it (log entry 3). -/
def State.withFetchWord (s : State) (nbits w : Nat) : State :=
  s.placeAtPc (BitVec.ofNat 32 (w % 2 ^ nbits))

end Sys2Proof.Machine
end

