-- ==== Sys2Proof/Machine/HostInterface.lean ====
section
/-! DEFINITION. What the host can do to the block and what it gets back: load, bind, reset, observe and no more (60_exceptions.md
R136, R138; 70_reset_and_hazards.md R141 to R145). None of these is a step of the core (log entry 16). -/

namespace Sys2Proof.Machine

/-- load (R138): PROG and PROG_LEN, before reset. -/
def State.hostLoad (s : State) (bytes : List Byte) : State :=
  { s with prog := Memory.writeBytes [] 0 bytes, progLen := BitVec.ofNat 32 bytes.length }

/-- bind (R138): the devices, given by what they will answer (log entry 6). -/
def State.hostBind (s : State) (replies : List (Option Reply)) : State := { s with replies := replies }

/-- What a console line device answers for the first byte `c` of a line: the pattern `c:00` (R134, for information only). No part of
the block: it is one of the answers `State.hostBind` takes, and the core reads it as it reads any other (R49, R78; log entry 17). -/
def consoleAnswer (c : Byte) : Reply := .ok (c ++ 0#8)

/-- reset (R141, R145): a fresh run of the same program on the same devices; an outstanding transaction is abandoned (D23). -/
def State.hostReset (s : State) : State :=
  { State.reset with
    prog := s.prog
    progLen := s.progLen
    downReadMode := s.downReadMode
    jroNegPolicy := s.jroNegPolicy
    replies := s.replies }

/-- What the host reads after a run (R138). -/
structure Observation where
  status : Status
  pc : BitVec 32
  acc : Value
  bak : Value
  last : BitVec 1
deriving DecidableEq, Repr

/-- observe (R136, R138, D21): STATUS and the registers, and only when RUN_STATE is not RUNNING. -/
def State.observe (s : State) : Option Observation :=
  match s.runState with
  | .running => none
  | .halted => some ⟨s.status, s.pc, s.acc, s.bak, portBit s.last⟩
  | .faulted => some ⟨s.status, s.pc, s.acc, s.bak, portBit s.last⟩

end Sys2Proof.Machine
end

