-- ==== Sys2Proof/Safety.lean ====
section
/-! DEFINITION. The ends of a run (60_exceptions.md R139, R140) and the invariants of the machine (10_state.md R18, R26). -/

namespace Sys2Proof.Machine

/-- A run has succeeded (R140). -/
abbrev State.Succeeded (s : State) : Prop := s.runState = .halted

/-- A run has failed (R140). -/
abbrev State.Failed (s : State) : Prop := s.runState = .faulted

/-- The core holds on a port: it runs and waits for an answer (R100). -/
abbrev State.Holding (s : State) : Prop := s.runState = .running ∧ s.phase ≠ .ready

/-- R26 (1), and the same of OPA (R76): the Value registers hold Values. -/
abbrev State.ValuesInRange (s : State) : Prop := s.acc.InRange ∧ s.bak.InRange ∧ s.opa.InRange

/-- R26 (5), with R23: FAULT_CODE is 0 exactly when the run has not failed, and FAULT_INFO is 0 when FAULT_CODE is. -/
abbrev State.StatusConsistent (s : State) : Prop :=
  (s.faultCode = .noFault ↔ s.runState ≠ .faulted) ∧ (s.faultCode = .noFault → s.faultInfo = 0)

/-- R26 (3), and R124: a halted run has reached the end of the program, and a core that has stopped waits for no device. -/
abbrev State.EndConsistent (s : State) : Prop :=
  (s.runState = .halted → s.progLen.toNat ≤ s.pc.toNat) ∧ (s.runState ≠ .running → s.phase = .ready)

/-- A selector byte that names something (R62). -/
abbrev LegalSelector (b : Byte) : Prop := (selectorOf b).isSome = true

/-- Every selector byte the instruction uses is legal (R67, R68). -/
def selectorsLegal : Instr → Bool
  | .mov (.sel b) d => (selectorOf b).isSome && (selectorOf d).isSome
  | .mov (.lit _) d => (selectorOf d).isSome
  | .add (.sel b) => (selectorOf b).isSome
  | .sub (.sel b) => (selectorOf b).isSome
  | .add (.lit _) => true
  | .sub (.lit _) => true
  | .nop => true
  | .swp => true
  | .sav => true
  | .neg => true
  | .jmp _ => true
  | .jez _ => true
  | .jnz _ => true
  | .jgz _ => true
  | .jlz _ => true
  | .jro => true

/-- The opcodes that do not advance PC by 4 as a rule of their own (R98). -/
def isJump : Instr → Bool
  | .jmp _ => true
  | .jez _ => true
  | .jnz _ => true
  | .jgz _ => true
  | .jlz _ => true
  | .jro => true
  | .nop => false
  | .mov _ _ => false
  | .swp => false
  | .sav => false
  | .add _ => false
  | .sub _ => false
  | .neg => false

/-- The decoder's answer for IR is an instruction that passed the validation of R96. -/
def State.irValidated (s : State) : Bool :=
  match decode s.ir with
  | .decoded i => selectorsLegal i
  | .illegal _ => false

/-- R24, R25, R96, R100: a core that holds waits for the transaction of a validated instruction, which is the record at PC. -/
abbrev State.HoldConsistent (s : State) : Prop :=
  s.phase = .ready ∨ (s.fetch = .record s.ir ∧ s.outstanding.isSome = true ∧ s.irValidated = true)

/-- Program memory is canonical and lies inside the program (R31; log entry 11). -/
abbrev State.ProgramCanonical (s : State) : Prop :=
  Memory.wf s.prog = true ∧ Memory.below s.progLen.toNat s.prog = true

/-- The invariant of the machine. -/
abbrev State.Inv (s : State) : Prop :=
  s.ValuesInRange ∧ s.StatusConsistent ∧ s.EndConsistent ∧ s.HoldConsistent ∧ s.ProgramCanonical

/-- R18: the bound on PC that the policies other than `castUnsigned` keep. -/
abbrev State.PcBounded (s : State) : Prop := s.pc.toNat ≤ max s.progLen.toNat (2 ^ 24 - 1)

end Sys2Proof.Machine
end

