-- ==== Sys2Proof/Certificates/Slice0/Obligations.lean ====
section
/-! DEFINITION. The statements for the provers. Each names the rule of spec/ it formalises; where a rule is the spec's own decision
or derivation, the docstring says so, and where a clause rests on a choice of the model, it names the log entry. -/

open Sys2Proof Sys2Proof.Machine

/-! ## Encoding -/

/-- R56, R60, R63, R65, R74: the record of a well-formed instruction decodes to that instruction, whatever its operands are. The
opcode numbers are the spec's decision D1. The opcode numbers are in log entry 14. It rests on the spec's decisions D4, D17 and D19
too. -/
def Obligations.DecodeEncodeRoundTrip : Prop :=
  ∀ i : Instr, i.WellFormed → decode (encode i) = .decoded i

/-- R60, R72 (derived in the spec from R78): the decoder gives only well-formed instructions, since it clamps every literal. That
the decoder resolves nothing more of an operand is the spec's decision D4. -/
def Obligations.DecodedInstructionsAreWellFormed : Prop :=
  ∀ (w : Record) (i : Instr), decode w = .decoded i → i.WellFormed

/-- R56, R57, R58, R60, R61, R63, R65, R66, R71: the whole decoder by arithmetic on the four bytes. The numbers 1 to 12 are the
spec's decision D1. The opcode numbers are in log entry 14. It rests on the spec's decisions D3, D4, D17 and D18 too. -/
def Obligations.LowNibbleSelectsTheInstruction : Prop :=
  ∀ b0 b1 b2 b3 : Byte,
    let n := b0.toNat % 16
    let a : Operand := if b0.toNat / 16 % 2 = 1 then .lit (fromBytes b1 b2) else .sel b2
    let t : BitVec 24 := BitVec.ofNat 24 (b1.toNat * 65536 + b2.toNat * 256 + b3.toNat)
    decodeBytes b0 b1 b2 b3 =
      if n = 0 then .decoded .nop
      else if n = 1 then .decoded (.mov a b3)
      else if n = 2 then .decoded .swp
      else if n = 3 then .decoded .sav
      else if n = 4 then .decoded (.add a)
      else if n = 5 then .decoded (.sub a)
      else if n = 6 then .decoded .neg
      else if n = 7 then .decoded (.jmp t)
      else if n = 8 then .decoded (.jez t)
      else if n = 9 then .decoded (.jnz t)
      else if n = 10 then .decoded (.jgz t)
      else if n = 11 then .decoded (.jlz t)
      else if n = 12 then .decoded .jro
      else .illegal b0

/-- R59: the reserved bits 7:5 of the first byte change no decoding, and the encoder writes them as 0. -/
def Obligations.ReservedBitsAreIgnored : Prop :=
  (∀ b0 b0' b1 b2 b3 : Byte, b0.toNat % 32 = b0'.toNat % 32 →
    ∀ i : Instr, decodeBytes b0 b1 b2 b3 = .decoded i ↔ decodeBytes b0' b1 b2 b3 = .decoded i) ∧
  (∀ i : Instr, (encode i).toNat / 2 ^ 29 = 0)

/-- R69 (the spec's decision D17): the fields an opcode does not read change nothing. In order: NOP, SWP, SAV, NEG and JRO read the
opcode alone; the jumps do not read L; ADD and SUB do not read b3; MOV, ADD and SUB do not read b1 when L is 0. The numbers of the
opcodes other than 0, which choose the clauses, are the spec's decision D1 (R65, log entry 14). -/
def Obligations.UnreadFieldsAreIgnored : Prop :=
  ∀ b0 b0' b1 b1' b2 b2' b3 b3' : Byte, b0.toNat % 16 = b0'.toNat % 16 → ∀ i : Instr,
    (b0.toNat % 16 ∈ [0, 2, 3, 6, 12] →
      (decodeBytes b0 b1 b2 b3 = .decoded i ↔ decodeBytes b0' b1' b2' b3' = .decoded i)) ∧
    (b0.toNat % 16 ∈ [7, 8, 9, 10, 11] →
      (decodeBytes b0 b1 b2 b3 = .decoded i ↔ decodeBytes b0' b1 b2 b3 = .decoded i)) ∧
    (b0.toNat % 16 ∈ [4, 5] →
      (decodeBytes b0 b1 b2 b3 = .decoded i ↔ decodeBytes b0 b1 b2 b3' = .decoded i)) ∧
    (b0.toNat % 16 ∈ [1, 4, 5] → b0.toNat / 16 % 2 = 0 →
      (decodeBytes b0 b1 b2 b3 = .decoded i ↔ decodeBytes b0 b1' b2 b3 = .decoded i))

/-- Words written out from the encodings of R56 and R74, one or more of each family, and an illegal one. The numbers of the opcodes
other than 0 and of the selectors in these words are the spec's decisions D1 and D2 (log entry 14). The reserved bits of F405DC00
are ignored (R59) and its literal 1500 is clamped (R60, R72); the illegal record keeps its whole first byte (R66, the spec's
decision D18). It rests on the spec's decisions D4 and D19 too. -/
def Obligations.WrittenOutWordsDecode : Prop :=
  decode 0x00000000 = .decoded .nop ∧ decode 0x11002A01 = .decoded (.mov (.lit 42) 1) ∧
  decode 0x01000203 = .decoded (.mov (.sel 2) 3) ∧ decode 0xF405DC00 = .decoded (.add (.lit 999)) ∧
  decode 0x15FC1900 = .decoded (.sub (.lit (-999))) ∧ decode 0x07010203 = .decoded (.jmp 66051) ∧
  decode 0x0C123456 = .decoded .jro ∧ decode 0xED000000 = .illegal 0xED

/-! ## The value unit -/

/-- R77. -/
def Obligations.ClampSaturates : Prop :=
  ∀ n : Int, (n > 999 → clamp n = 999) ∧ (n < -999 → clamp n = -999) ∧ (-999 ≤ n → n ≤ 999 → clamp n = n)

/-- R78: `fromBytes` is the clamp of the signed 16-bit number `hi*256 + lo`. At the pairs FD 00, FE 00 and FF 00, where R134 says
otherwise, that R78 is followed is log entry 17. -/
def Obligations.FromBytesSignExtendsAndClamps : Prop :=
  ∀ hi lo : Byte,
    let u : Int := (hi.toNat * 256 + lo.toNat : Nat)
    (fromBytes hi lo).toInt = clamp (if u < 2 ^ 15 then u else u - 2 ^ 16) ∧ (fromBytes hi lo).InRange

/-- R79, R80: `toBytes` is the two bytes of `v mod 2^16`, and `fromBytes` reads them back. -/
def Obligations.ToBytesRoundTrips : Prop :=
  ∀ v : Value, v.InRange →
    (((toBytes v).1.toNat * 256 + (toBytes v).2.toNat : Nat) : Int) = v.toInt % 2 ^ 16 ∧
      fromBytes (toBytes v).1 (toBytes v).2 = v

/-- R81, R82: the exact sum or difference of two Values lies in [-1998, 1998] and is clamped, and the result is a Value. -/
def Obligations.AddAndSubSaturate : Prop :=
  ∀ a b : Value, a.InRange → b.InRange →
    (-1998 ≤ a.toInt + b.toInt ∧ a.toInt + b.toInt ≤ 1998) ∧ (-1998 ≤ a.toInt - b.toInt ∧ a.toInt - b.toInt ≤ 1998) ∧
    (addValue a b).toInt = clamp (a.toInt + b.toInt) ∧ (subValue a b).toInt = clamp (a.toInt - b.toInt) ∧
    (addValue a b).InRange ∧ (subValue a b).InRange

/-- R83 (exactness is derived in the spec; the boundary -999 is conflict C2): negation is exact on Values and its own inverse. -/
def Obligations.NegateIsExactAndInvolutive : Prop :=
  ∀ a : Value, a.InRange → (negateValue a).toInt = -a.toInt ∧ negateValue (negateValue a) = a

/-- R88 (derived in the spec), law by law: closure, of every operation of the unit and of `fromBytes`; the clamp idempotent and
monotone; the zero laws, commutativity and subtraction as addition of the negation; addition not associative; negation an
involution; both monotonicities. -/
def Obligations.ValueUnitLaws : Prop :=
  (∀ hi lo : Byte, (fromBytes hi lo).InRange) ∧
  (∀ (op : ValueOp) (a b : Value), a.InRange → b.InRange → (valueUnit op a b).result.InRange) ∧
  (∀ n : Int, clamp (clamp n) = clamp n) ∧ (∀ m n : Int, m ≤ n → clamp m ≤ clamp n) ∧
  addValue (addValue 999 1) (-1) = 998 ∧ addValue 999 (addValue 1 (-1)) = 999 ∧
  ∀ a a' b : Value, a.InRange → a'.InRange → b.InRange →
    addValue a b = addValue b a ∧ addValue a 0 = a ∧ subValue a 0 = a ∧ subValue a b = addValue a (negateValue b) ∧
    negateValue (negateValue a) = a ∧
    (a.toInt ≤ a'.toInt → (addValue a b).toInt ≤ (addValue a' b).toInt ∧ (subValue b a').toInt ≤ (subValue b a).toInt)

/-! ## Instructions that touch no port: the result, and everything else unchanged -/

/-- R105: every record with opcode 0 is a NOP, and NOP advances PC and changes nothing else. -/
def Obligations.NopAdvancesPcOnly : Prop :=
  (∀ b0 b1 b2 b3 : Byte, b0.toNat % 16 = 0 → decodeBytes b0 b1 b2 b3 = .decoded .nop) ∧
  encode .nop = 0x00000000 ∧
  ∀ s : State, exec .nop s = .next { s with pc := s.pc + 4 }

/-- R107: SWP exchanges ACC and BAK, advances PC and changes nothing else. That opcode 2 is SWP is the spec's decision D1 (log entry
14). That the other fields are never looked at is the spec's decision D17. -/
def Obligations.SwpExchangesAccAndBak : Prop :=
  (∀ b0 b1 b2 b3 : Byte, b0.toNat % 16 = 2 → decodeBytes b0 b1 b2 b3 = .decoded .swp) ∧
  encode .swp = 0x02000000 ∧
  ∀ s : State, exec .swp s = .next { s with acc := s.bak, bak := s.acc, pc := s.pc + 4 }

/-- R108: SAV copies ACC into BAK, advances PC and changes nothing else. That opcode 3 is SAV is the spec's decision D1 (log entry
14). That the other fields are never looked at is the spec's decision D17. -/
def Obligations.SavCopiesAccToBak : Prop :=
  (∀ b0 b1 b2 b3 : Byte, b0.toNat % 16 = 3 → decodeBytes b0 b1 b2 b3 = .decoded .sav) ∧
  encode .sav = 0x03000000 ∧
  ∀ s : State, exec .sav s = .next { s with bak := s.acc, pc := s.pc + 4 }

/-- R111: NEG negates ACC, advances PC and changes nothing else; on a Value the negation is exact, and two restore it. That opcode 6
is NEG is the spec's decision D1 (log entry 14); exactness is derived in the spec (R83), at -999 by its conflict C2. That the other
fields are never looked at is the spec's decision D17. -/
def Obligations.NegNegatesAcc : Prop :=
  (∀ b0 b1 b2 b3 : Byte, b0.toNat % 16 = 6 → decodeBytes b0 b1 b2 b3 = .decoded .neg) ∧
  encode .neg = 0x06000000 ∧
  ∀ s : State, ∃ v : Value, exec .neg s = .next { s with acc := v, pc := s.pc + 4 } ∧ v.toInt = clamp (-s.acc.toInt) ∧
    (s.acc.InRange → v.toInt = -s.acc.toInt ∧
      exec .neg { s with acc := v, pc := s.pc + 4 } = .next { s with pc := s.pc + 4 + 4 })

/-- R114: JMP sets PC to the packed target, verbatim, and changes nothing else. That opcode 7 is JMP is the spec's decision D1 (log
entry 14). That a jump ignores the literal flag is the spec's decision D17. -/
def Obligations.JmpSetsPcToTarget : Prop :=
  (∀ b0 b1 b2 b3 : Byte, b0.toNat % 16 = 7 →
    decodeBytes b0 b1 b2 b3 = .decoded (.jmp (BitVec.ofNat 24 (b1.toNat * 65536 + b2.toNat * 256 + b3.toNat)))) ∧
  ∀ (t : BitVec 24) (s : State), exec (.jmp t) s = .next { s with pc := BitVec.ofNat 32 t.toNat }

/-- R115 to R118: each conditional jump goes to its target when its signed test of ACC against 0 holds and advances PC when it does
not, and changes nothing else. That opcodes 8 to 11 are JEZ, JNZ, JGZ and JLZ is the spec's decision D1 (log entry 14). That a jump
ignores the literal flag is the spec's decision D17. -/
def Obligations.ConditionalJumpsTestAcc : Prop :=
  (∀ b0 b1 b2 b3 : Byte,
    let t : BitVec 24 := BitVec.ofNat 24 (b1.toNat * 65536 + b2.toNat * 256 + b3.toNat)
    (b0.toNat % 16 = 8 → decodeBytes b0 b1 b2 b3 = .decoded (.jez t)) ∧
    (b0.toNat % 16 = 9 → decodeBytes b0 b1 b2 b3 = .decoded (.jnz t)) ∧
    (b0.toNat % 16 = 10 → decodeBytes b0 b1 b2 b3 = .decoded (.jgz t)) ∧
    (b0.toNat % 16 = 11 → decodeBytes b0 b1 b2 b3 = .decoded (.jlz t))) ∧
  ∀ (t : BitVec 24) (s : State),
    exec (.jez t) s = .next { s with pc := if s.acc.toInt = 0 then BitVec.ofNat 32 t.toNat else s.pc + 4 } ∧
    exec (.jnz t) s = .next { s with pc := if s.acc.toInt ≠ 0 then BitVec.ofNat 32 t.toNat else s.pc + 4 } ∧
    exec (.jgz t) s = .next { s with pc := if s.acc.toInt > 0 then BitVec.ofNat 32 t.toNat else s.pc + 4 } ∧
    exec (.jlz t) s = .next { s with pc := if s.acc.toInt < 0 then BitVec.ofNat 32 t.toNat else s.pc + 4 }

/-- R119 (the spec's decision D6): with ACC not negative, JRO jumps to the absolute offset in ACC under every policy, and changes
nothing else. That PC holds the offset in 32 bits is the spec's decision D8. -/
def Obligations.JroJumpsToAcc : Prop :=
  ∀ s : State, 0 ≤ s.acc.toInt → ∃ p : BitVec 32, exec .jro s = .next { s with pc := p } ∧ (p.toNat : Int) = s.acc.toInt

/-- R119, R123, R124 (the spec's decision D6): with ACC negative, JRO does what JRO_NEG_POLICY says. Under `fault` PC stays and
STATUS is written; the remainder is by the positive PROG_LEN a step always finds (log entry 5). The fault's entry and its record are
the spec's decisions D10, D12, D13 and D18. -/
def Obligations.JroNegativeFollowsPolicy : Prop :=
  ∀ s : State, s.acc.toInt < 0 →
    (s.jroNegPolicy = .fault →
      exec .jro s = .next { s with
        runState := .faulted, faultCode := .jroRangeError, faultInfo := BitVec.ofNat 64 s.acc.toNat, phase := .ready }) ∧
    (s.jroNegPolicy = .clampZero → exec .jro s = .next { s with pc := 0 }) ∧
    (s.jroNegPolicy = .wrapModLen → 0 < s.progLen.toNat →
      ∃ p : BitVec 32, exec .jro s = .next { s with pc := p } ∧ (p.toNat : Int) = s.acc.toInt % s.progLen.toNat) ∧
    (s.jroNegPolicy = .castUnsigned →
      ∃ p : BitVec 32, exec .jro s = .next { s with pc := p } ∧ (p.toNat : Int) = 2 ^ 32 + s.acc.toInt)

/-! ## Operands and the resolver -/

/-- R41 to R47, R60, R62, R67 (selector numbers: the spec's decision D2; DownPort reads: D5): what each source and destination byte
reaches, in every state. The selector numbers are in log entry 14. It rests on the spec's decisions D3, D4, D15 and D24 too. -/
def Obligations.SelectorBytesReach : Prop :=
  ∀ s : State,
    (∀ v, sourceOf s (.lit v) = .value v) ∧
    sourceOf s (.sel 1) = .value s.acc ∧
    sourceOf s (.sel 2) = .port .up .up ∧
    (s.downReadMode = .aliasUpRecordDown → sourceOf s (.sel 3) = .port .up .down) ∧
    (s.downReadMode = .aliasUpRecordUp → sourceOf s (.sel 3) = .port .up .up) ∧
    (s.downReadMode = .readDown → sourceOf s (.sel 3) = .port .down .down) ∧
    sourceOf s (.sel 0) = (if s.last = .up then sourceOf s (.sel 2) else sourceOf s (.sel 3)) ∧
    destOf s 0 = .port s.last ∧ destOf s 1 = .acc ∧ destOf s 2 = .port .up ∧ destOf s 3 = .port .down ∧
    ∀ b : Byte, 4 ≤ b.toNat → sourceOf s (.sel b) = .illegal b ∧ destOf s b = .illegal b

/-- R109, R110: with a literal or ACC as operand A, ADD and SUB complete in one step: ACC takes the clamped sum or difference, PC
advances, nothing else changes. It rests on the spec's decisions D3 and D4. -/
def Obligations.AddSubOfValueComplete : Prop :=
  ∀ (s : State) (a : Operand) (v : Value), s.phase = .ready → sourceOf s a = .value v →
    (∃ x : Value, exec (.add a) s = .next { s with acc := x, pc := s.pc + 4 } ∧ x.toInt = clamp (s.acc.toInt + v.toInt)) ∧
    (∃ x : Value, exec (.sub a) s = .next { s with acc := x, pc := s.pc + 4 } ∧ x.toInt = clamp (s.acc.toInt - v.toInt))

/-- R106: with a literal or ACC as source and ACC as destination, MOV completes in one step: ACC and the latch OPA take the Value,
PC advances, nothing else changes. That destination byte 1 is ACC is R62, the spec's decision D2 (log entry 14). That OPA is written
here too is log entry 15. It rests on the spec's decisions D3, D4, D15 and D20 too. Port destinations are
MovOfValueToPortIssuesWrite's. -/
def Obligations.MovOfValueToAccCompletes : Prop :=
  ∀ (s : State) (a : Operand) (v : Value), s.phase = .ready → sourceOf s a = .value v →
    exec (.mov a 1) s = .next { s with opa := v, acc := v, pc := s.pc + 4 }

/-- R100, R106, R45 (holding is the spec's decision D20): a MOV of a literal or ACC to a port issues the write of that Value and
holds; only OPA and PHASE change. It rests on the spec's decisions D3, D4, D15 and D24 too. -/
def Obligations.MovOfValueToPortIssuesWrite : Prop :=
  ∀ (s : State) (a : Operand) (d : Byte) (v : Value) (p : Port),
    s.phase = .ready → sourceOf s a = .value v → destOf s d = .port p →
    exec (.mov a d) s = .next { s with opa := v, phase := .waitDst } ∧
    (decode s.ir = .decoded (.mov a d) → State.outstanding { s with opa := v, phase := .waitDst } = some (.write p v))

/-- R100, R106, R109, R110 (holding is the spec's decision D20): MOV, ADD and SUB of a port issue the read and hold; only PHASE
changes. It rests on the spec's decisions D3, D4, D5 and D15 too. -/
def Obligations.PortSourceIssuesRead : Prop :=
  ∀ (s : State) (a : Operand) (d : Byte) (ch rec : Port),
    s.phase = .ready → sourceOf s a = .port ch rec → LegalSelector d →
    exec (.mov a d) s = .next { s with phase := .waitSrc } ∧
    exec (.add a) s = .next { s with phase := .waitSrc } ∧
    exec (.sub a) s = .next { s with phase := .waitSrc } ∧
    (decode s.ir ∈ [.decoded (.mov a d), .decoded (.add a), .decoded (.sub a)] →
      State.outstanding { s with phase := .waitSrc } = some (.read ch))

/-- R43, R44, R49, R101, R109, R110: the answer `Ok(u)` completes ADD and SUB with the clamped Value of `u`, records LAST and puts
the transaction on record; nothing else changes. At the patterns FD00, FE00 and FF00 the Value is that of R78, not of R134 (log
entry 17). The lists of answers and of transactions are log entries 6 and 7. It rests on the spec's decisions D3, D4, D5, D11 and
D20. -/
def Obligations.AnsweredReadCompletesAddSub : Prop :=
  ∀ (s : State) (a : Operand) (ch rec : Port) (u : BitVec 16) (rest : List (Option Reply)),
    s.phase = .waitSrc → sourceOf s a = .port ch rec → s.replies = some (.ok u) :: rest →
    ∃ x y : Value,
      exec (.add a) s = .next { s with
        acc := x, last := rec, pc := s.pc + 4, phase := .ready, replies := rest, log := s.log ++ [⟨.read ch, .ok u⟩] } ∧
      exec (.sub a) s = .next { s with
        acc := y, last := rec, pc := s.pc + 4, phase := .ready, replies := rest, log := s.log ++ [⟨.read ch, .ok u⟩] } ∧
      x.toInt = clamp (s.acc.toInt + clamp u.toInt) ∧ y.toInt = clamp (s.acc.toInt - clamp u.toInt)

/-- R43, R44, R49, R101, R106: the answer `Ok(u)` completes a MOV to ACC with the clamped Value of `u`; nothing but what is named
changes. At the patterns FD00, FE00 and FF00 the Value is that of R78, not of R134 (log entry 17). That destination byte 1 is ACC is
R62, the spec's decision D2 (log entry 14). The lists of answers and of transactions are log entries 6 and 7, OPA log entry 15. It
rests on the spec's decisions D3, D4, D5, D11, D15 and D20 too. -/
def Obligations.AnsweredReadCompletesMovToAcc : Prop :=
  ∀ (s : State) (a : Operand) (ch rec : Port) (u : BitVec 16) (rest : List (Option Reply)),
    s.phase = .waitSrc → sourceOf s a = .port ch rec → s.replies = some (.ok u) :: rest →
    ∃ v : Value, v.toInt = clamp u.toInt ∧
      exec (.mov a 1) s = .next { s with
        opa := v, acc := v, last := rec, pc := s.pc + 4, phase := .ready, replies := rest,
        log := s.log ++ [⟨.read ch, .ok u⟩] }

/-- R45, R101, R106 (the sequential order is derived in the spec): a MOV from port to port goes from its answered read to the write,
and the destination is resolved with the LAST that read has just recorded. At the patterns FD00, FE00 and FF00 the Value is that of
R78, not of R134 (log entry 17). The lists of answers and of transactions are log entries 6 and 7. It rests on the spec's decisions
D3, D4, D11, D15, D20 and D24. -/
def Obligations.AnsweredReadGoesOnToWrite : Prop :=
  ∀ (s : State) (a : Operand) (d : Byte) (ch rec p : Port) (u : BitVec 16) (rest : List (Option Reply)),
    s.phase = .waitSrc → sourceOf s a = .port ch rec → s.replies = some (.ok u) :: rest →
    destOf { s with last := rec } d = .port p →
    ∃ v : Value, v.toInt = clamp u.toInt ∧
      let t : State := { s with
        opa := v, last := rec, phase := .waitDst, replies := rest, log := s.log ++ [⟨.read ch, .ok u⟩] }
      exec (.mov a d) s = .next t ∧ (decode s.ir = .decoded (.mov a d) → t.outstanding = some (.write p v))

/-- R47, R101, R106 (no alias on writes: the spec's decision D24; the pattern in the answer is not looked at: log entry 13): an
accepted write completes the MOV and records its port as LAST; nothing but what is named changes. The lists of answers and of
transactions are log entries 6 and 7. It rests on the spec's decisions D3, D4, D15 and D20 too. -/
def Obligations.AcceptedWriteCompletesMov : Prop :=
  ∀ (s : State) (a : Operand) (d : Byte) (p : Port) (u : BitVec 16) (rest : List (Option Reply)),
    s.phase = .waitDst → destOf s d = .port p → s.replies = some (.ok u) :: rest →
    exec (.mov a d) s = .next { s with
      last := p, pc := s.pc + 4, phase := .ready, replies := rest, log := s.log ++ [⟨.write p s.opa, .ok u⟩] }

/-- R51, R102, R123, R124, R126 (the record is the spec's decision D12): an `Err(k)` to a read of MOV, ADD or SUB, or to the write
of a MOV, ends the run with PC, ACC, BAK, LAST and OPA as they were; so after a failed write LAST keeps what the source read set.
The lists of answers and of transactions are log entries 6 and 7. The fault's entry is the spec's decisions D10, D13 and D18. -/
def Obligations.PortErrorsFault : Prop :=
  ∀ (s : State) (a : Operand) (d : Byte) (k : BitVec 32) (rest : List (Option Reply)), s.replies = some (.err k) :: rest →
    (∀ ch rec : Port, s.phase = .waitSrc → sourceOf s a = .port ch rec →
      let t : State := { s with
        runState := .faulted, faultCode := .portError, faultInfo := portInfo ch .read k, phase := .ready,
        replies := rest, log := s.log ++ [⟨.read ch, .err k⟩] }
      exec (.mov a d) s = .next t ∧ exec (.add a) s = .next t ∧ exec (.sub a) s = .next t) ∧
    (∀ p : Port, s.phase = .waitDst → destOf s d = .port p →
      exec (.mov a d) s = .next { s with
        runState := .faulted, faultCode := .portError, faultInfo := portInfo p .write k, phase := .ready,
        replies := rest, log := s.log ++ [⟨.write p s.opa, .err k⟩] })

/-- R96, R123, R124, R127 (the spec's decisions D3 and D15): an illegal selector byte faults before anything else happens, the
source field before the destination field. That the bytes from 4 on name nothing is R62, the spec's decision D2 (log entry 14). The
fault's entry, its record and the order are the spec's decisions D10, D12, D13, D14 and D18. -/
def Obligations.IllegalSelectorsFault : Prop :=
  ∀ (s : State) (b d : Byte) (a : Operand), s.phase = .ready →
    (4 ≤ b.toNat →
      let t : State := { s with
        runState := .faulted, faultCode := .selectorError, faultInfo := BitVec.ofNat 64 b.toNat, phase := .ready }
      exec (.mov (.sel b) d) s = .next t ∧ exec (.add (.sel b)) s = .next t ∧ exec (.sub (.sel b)) s = .next t) ∧
    (4 ≤ d.toNat → (∀ x : Byte, a = .sel x → x.toNat < 4) →
      exec (.mov a d) s = .next { s with
        runState := .faulted, faultCode := .selectorError, faultInfo := BitVec.ofNat 64 (256 + d.toNat), phase := .ready })

/-- R123 (the spec's decisions D12 and D18): FAULT_INFO as a number, for each fault. -/
def Obligations.FaultInfoIsPacked : Prop :=
  (∀ b : Byte, (decodeInfo b).toNat = b.toNat) ∧
  (∀ (ch : Port) (dir : Direction) (k : BitVec 32), (portInfo ch dir k).toNat =
    k.toNat * 2 ^ 32 + (if dir = .write then 2 else 0) + (if ch = .down then 1 else 0)) ∧
  (∀ (f : SelField) (b : Byte), (selectorInfo f b).toNat = (if f = .dst then 256 else 0) + b.toNat) ∧
  (∀ pc len : BitVec 32, (boundsInfo pc len).toNat = len.toNat * 2 ^ 32 + pc.toNat) ∧
  (∀ a : Value, (jroInfo a).toNat = a.toNat)

/-! ## Frames of the instructions -/

/-- R99 (the spec's decision D4), R112: the ten instructions without operand A touch no port, whatever the devices would answer, and
change neither LAST nor the latches; PHASE changes only where JRO faults. The lists of answers and of transactions are log entries 6
and 7, that PHASE is not looked at log entry 15. It rests on the spec's decisions D9 and D17 too. -/
def Obligations.OtherInstructionsTouchNoPort : Prop :=
  ∀ (i : Instr) (s t : State), i.operandA? = none → exec i s = .next t →
    t.replies = s.replies ∧ t.log = s.log ∧ t.last = s.last ∧ t.ir = s.ir ∧ t.opa = s.opa ∧
    (t.phase = s.phase ∨ (i = .jro ∧ t.runState = .faulted)) ∧
    (∀ r : List (Option Reply), exec i { s with replies := r } = .next { t with replies := r })

/-- R15, R16 (derived in the spec): only SWP and SAV write BAK; only MOV with destination ACC, SWP, ADD, SUB and NEG write ACC. The
destination byte 1 names ACC, and 0, 2, 3 name ports. The numbers of the destination bytes are R62, the spec's decision D2 (log entry 14). -/
def Obligations.AccAndBakWriters : Prop :=
  ∀ (i : Instr) (s t : State), exec i s = .next t →
    (i ≠ .swp → i ≠ .sav → t.bak = s.bak) ∧
    (isJump i = true ∨ i = .nop ∨ i = .sav ∨ (∃ a d, i = .mov a d ∧ d ≠ 1) → t.acc = s.acc)

/-- The frame of MOV, ADD and SUB over all their forms and phases (R100, R102, R106, R109, R110): the program, every byte of it, the
parameters, BAK and IR are unchanged, OPA is MOV's alone, STATUS changes only into a fault, a step that holds or faults leaves PC
and ACC alone, and any other advances PC by 4. That the parameters stay is the model's: R6 makes them arguments, held in fields that
no step writes (log entries 4 and 5). It rests on the spec's decisions D3, D4, D15 and D20. -/
def Obligations.OperandInstructionsFrame : Prop :=
  ∀ (i : Instr) (s t : State), i.operandA? ≠ none → exec i s = .next t →
    (∀ a : Nat, t.byteAt a = s.byteAt a) ∧ t.prog = s.prog ∧ t.progLen = s.progLen ∧
    t.downReadMode = s.downReadMode ∧ t.jroNegPolicy = s.jroNegPolicy ∧ t.bak = s.bak ∧ t.ir = s.ir ∧
    ((∃ a d, i = .mov a d) ∨ t.opa = s.opa) ∧
    ((t.runState = .faulted ∧ t.phase = .ready ∧ t.pc = s.pc ∧ t.acc = s.acc) ∨
     (t.runState = s.runState ∧ t.faultCode = s.faultCode ∧ t.faultInfo = s.faultInfo ∧
       ((t.phase ≠ .ready ∧ t.pc = s.pc ∧ t.acc = s.acc) ∨ (t.phase = .ready ∧ t.pc = s.pc + 4))))

/-! ## The step -/

/-- R94, R97, R103: an instruction step at a record that decodes runs exactly that instruction, with IR latched. -/
def Obligations.StepRunsTheRecordAtPc : Prop :=
  ∀ (s : State) (b0 b1 b2 b3 : Byte) (i : Instr), s.runState = .running → s.phase = .ready →
    s.memRead s.pc.toNat 4 = some [b0, b1, b2, b3] → decodeBytes b0 b1 b2 b3 = .decoded i →
    step s = exec i { s with ir := recordOf b0 b1 b2 b3 }

/-- R101 (the spec's decision D20): a resume step goes on with the instruction in IR. -/
def Obligations.StepResumesTheHoldingInstruction : Prop :=
  ∀ (s : State) (i : Instr) (q : Request), s.runState = .running → s.phase ≠ .ready → decode s.ir = .decoded i →
    s.outstanding = some q → step s = exec i s

/-- R92: at or past the end of the program the run halts, with nothing fetched and nothing else changed. -/
def Obligations.StepHaltsAtTheEnd : Prop :=
  ∀ s : State, s.runState = .running → s.phase = .ready → s.progLen.toNat ≤ s.pc.toNat →
    step s = .next { s with runState := .halted }

/-- R93, R123, R124 (the spec's decision D7): a record that runs past the end of the program faults, with no byte read. The fault's
entry and its record are the spec's decisions D10, D12, D13 and D18. -/
def Obligations.TruncatedRecordFaults : Prop :=
  ∀ s : State, s.runState = .running → s.phase = .ready → s.pc.toNat < s.progLen.toNat →
    s.progLen.toNat < s.pc.toNat + 4 →
    step s = .next { s with
      runState := .faulted, faultCode := .fetchBoundsError, faultInfo := s.progLen ++ s.pc, phase := .ready }

/-- R95: an illegal opcode faults with the whole first byte, and nothing of the record executes: only IR has latched it. The fault's
entry (R124) and its record are the spec's decisions D10, D12, D13 and D18. -/
def Obligations.IllegalOpcodeFaults : Prop :=
  ∀ (s : State) (b0 b1 b2 b3 : Byte), s.runState = .running → s.phase = .ready →
    s.memRead s.pc.toNat 4 = some [b0, b1, b2, b3] → 13 ≤ b0.toNat % 16 →
    step s = .next { s with
      ir := recordOf b0 b1 b2 b3, runState := .faulted, faultCode := .decodeError, faultInfo := BitVec.ofNat 64 b0.toNat,
      phase := .ready }

/-- R32: no step writes program memory. That the parameters stay too is not said by R32: R6 makes them arguments of the model, and
the model holds them in fields that no step writes (log entries 4 and 5). -/
def Obligations.StepKeepsProgramMemory : Prop :=
  ∀ s t : State, step s = .next t →
    (∀ a : Nat, t.byteAt a = s.byteAt a) ∧ t.prog = s.prog ∧ t.progLen = s.progLen ∧
    t.downReadMode = s.downReadMode ∧ t.jroNegPolicy = s.jroNegPolicy

/-- R104, R137 (the spec's decision D21): a run that has ended stays as it is, however long one waits. That the model's step after
the end is a step that changes nothing is log entry 8. That nothing but reset leaves the end is the spec's decision D16 too. -/
def Obligations.EndedRunsStay : Prop :=
  ∀ (s : State) (k : Nat), s.runState ≠ .running → core.run k s = .next s

/-- R50, R100, R139 (that a hold is a step is log entry 9): in a step in which no answer comes nothing of the core changes, and only
that step's entry of `replies` is used up (log entry 6); with a device that never answers the core holds for ever, still RUNNING.
The hold is the spec's decision D20. -/
def Obligations.UnansweredHoldChangesNothing : Prop :=
  ∀ s : State, s.Inv → s.Holding →
    (∀ rest : List (Option Reply), s.replies = none :: rest → step s = .next { s with replies := rest }) ∧
    (s.replies = [] → ∀ k : Nat, core.run k s = .next s)

/-! ## Reset and the host -/

/-- R27: the reset values the spec states. IR and OPA, which it leaves unspecified, are not named here (log entries 1 and 2). The
values of STATUS and PHASE are the spec's decisions D10 and D20. -/
def Obligations.ResetValues : Prop :=
  State.reset.pc = 0 ∧ State.reset.acc = 0 ∧ State.reset.bak = 0 ∧ State.reset.last = .down ∧
  State.reset.status = ⟨0, 0, 0⟩ ∧ State.reset.phase = .ready

/-- R141, R145 (the spec's decisions D20 and D23): a host reset from any state gives the reset values, abandons an outstanding
transaction, keeps the program and the parameters (log entries 3 to 6), and starts a run that meets the invariant. R27 and R141
leave OPA unspecified, so that OPA is then a Value rests on the model's 0 of log entry 2; that the program is canonical is in the
form of log entry 11. The values of STATUS are the spec's decision D10, the fresh run D21. -/
def Obligations.HostResetStartsAFreshRun : Prop :=
  ∀ s : State,
    s.hostReset.pc = 0 ∧ s.hostReset.acc = 0 ∧ s.hostReset.bak = 0 ∧ s.hostReset.last = .down ∧
    s.hostReset.status = ⟨0, 0, 0⟩ ∧ s.hostReset.outstanding = none ∧
    (∀ a : Nat, s.hostReset.byteAt a = s.byteAt a) ∧ s.hostReset.progLen = s.progLen ∧
    s.hostReset.downReadMode = s.downReadMode ∧ s.hostReset.jroNegPolicy = s.jroNegPolicy ∧
    (s.ProgramCanonical → s.hostReset.Inv)

/-- R28, R31, R138: loading a program of any length the block takes puts each byte at its offset, and nothing past the end. The load
as an act of the host is the spec's decision D21; the form of the program is log entry 11. -/
def Obligations.HostLoadPlacesTheProgram : Prop :=
  ∀ (s : State) (bytes : List Byte), bytes.length < 2 ^ 32 →
    (s.hostLoad bytes).ProgramCanonical ∧ (s.hostLoad bytes).progLen.toNat = bytes.length ∧
    ∀ a : Nat, (s.hostLoad bytes).byteAt a = bytes[a]?

/-- R21, R22, R122, R136, R138 (the spec's decisions D10 and D21): the numbers STATUS holds, and that the host reads STATUS, PC,
ACC, BAK and LAST exactly when the run has ended. The block's lack of any other reading is the spec's decision D16; the inductive
types behind the numbers are log entry 12. -/
def Obligations.HostReadsStatusAndRegisters : Prop :=
  ∀ s : State,
    (s.status.runState = 0 ↔ s.runState = .running) ∧ (s.status.runState = 1 ↔ s.Succeeded) ∧
    (s.status.runState = 2 ↔ s.Failed) ∧ s.status.runState ≠ 3 ∧
    (s.status.faultCode = 0 ↔ s.faultCode = .noFault) ∧ (s.status.faultCode = 1 ↔ s.faultCode = .decodeError) ∧
    (s.status.faultCode = 2 ↔ s.faultCode = .portError) ∧ (s.status.faultCode = 3 ↔ s.faultCode = .selectorError) ∧
    (s.status.faultCode = 4 ↔ s.faultCode = .fetchBoundsError) ∧ (s.status.faultCode = 5 ↔ s.faultCode = .jroRangeError) ∧
    s.status.faultCode.toNat < 6 ∧ s.status.faultInfo = s.faultInfo ∧
    s.observe = (if s.runState = .running then none
      else some ⟨s.status, s.pc, s.acc, s.bak, if s.last = .up then 0 else 1⟩)

/-! ## Invariants and rules of the whole machine -/

/-- R26, R27: the invariant holds after reset. R27 leaves OPA unspecified, so that OPA is a Value rests on the model's 0 of log
entry 2; that the program is canonical rests on the empty program of log entry 3 and the form of log entry 11. The values of STATUS
and PHASE are the spec's decisions D10 and D20. -/
def Obligations.ResetMeetsTheInvariant : Prop := State.reset.Inv

/-- R26 (items 3 to 5 are derived in the spec), R24, R25, R31: every step from a state that meets the invariant gives one that meets
it: Values in the Value registers, STATUS consistent, a halted run past the end, a hold that waits for the transaction of the
validated record at PC, a canonical program (in the form of log entry 11). PHASE, IR and OPA are the spec's decision D20. -/
def Obligations.EveryStepKeepsTheInvariant : Prop :=
  ∀ s t : State, s.Inv → step s = .next t → t.Inv

/-- R97, R121: from a state that meets the invariant the step always answers a next state; the Lean fault of log entry 10 and the
refusal are never met. After the end of a run and while a device has not answered the spec's core takes no step (R104, R100): that
the model's step then answers a next state is log entries 8 and 9. The hold and the end of a run are decisions D20 and D21 of the spec. -/
def Obligations.EveryStepAnswersANextState : Prop :=
  ∀ s : State, s.Inv → ∃ t : State, step s = .next t

/-- R26 (1), R76: ACC, BAK and OPA stay Values, from any state in which they are. -/
def Obligations.ValuesStayInRange : Prop :=
  ∀ s t : State, s.ValuesInRange → step s = .next t → t.ValuesInRange

/-- R18 (derived in the spec): under every policy but `castUnsigned`, PC stays at most max(PROG_LEN, 2^24 - 1). It rests on the
spec's decisions D6, D8, D9 and D17. -/
def Obligations.PcStaysBounded : Prop :=
  ∀ s t : State, s.Inv → s.PcBounded → s.jroNegPolicy ≠ .castUnsigned → step s = .next t → t.PcBounded

/-- R98 (the spec's decision D8; no wrap is derived in the spec): an instruction that is no jump either holds or faults with PC as it
was, or completes with PC four further on, without wrapping and still inside the program. -/
def Obligations.SequentialPcAdvancesByFour : Prop :=
  ∀ (s t : State) (w : Record) (i : Instr), s.Inv → s.runState = .running → s.fetch = .record w →
    decode w = .decoded i → isJump i = false → step s = .next t →
    (t.pc = s.pc ∧ (t.runState = .faulted ∨ t.phase ≠ .ready)) ∨
    (t.pc.toNat = s.pc.toNat + 4 ∧ t.pc.toNat ≤ t.progLen.toNat ∧ t.runState = .running ∧ t.phase = .ready)

/-- R48, R52: a step completes at most one transaction, the one that was outstanding, with the device's next answer, and issues its
next one only then; an unanswered transaction stays outstanding as it is. The lists of answers and of transactions are log entries 6
and 7, the step without an answer log entry 9. The answers are the spec's decisions D11 and D12. -/
def Obligations.TransactionsCompleteInOrder : Prop :=
  ∀ s t : State, step s = .next t →
    (t.log = s.log ∧ (t.replies = s.replies ∨ s.replies = none :: t.replies) ∧
      (∀ q : Request, s.outstanding = some q → s.runState = .running → t.outstanding = some q)) ∨
    (∃ q r, s.outstanding = some q ∧ s.replies = some r :: t.replies ∧ t.log = s.log ++ [⟨q, r⟩])

/-- R17, R43, R44, R47: LAST changes only in a step that completes a transaction with `Ok`; an accepted write leaves its own channel
in LAST, and so does a read of the down channel, or of either channel where DownPort reads are not recorded as Down. The list of
transactions is log entry 7. It rests on the spec's decisions D5, D22 and D24. -/
def Obligations.OnlySuccessfulAccessesChangeLast : Prop :=
  ∀ s t : State, step s = .next t →
    (t.last ≠ s.last → ∃ q u, t.log = s.log ++ [⟨q, .ok u⟩]) ∧
    (∀ (p : Port) (v u : BitVec 16), t.log = s.log ++ [⟨.write p v, .ok u⟩] → t.last = p) ∧
    (∀ (p : Port) (u : BitVec 16), t.log = s.log ++ [⟨.read p, .ok u⟩] →
      p = .down ∨ s.downReadMode ≠ .aliasUpRecordDown → t.last = p)

/-- R102, R124, R125, R126: a step that faults leaves PC at the faulting record and ACC, BAK, LAST and OPA at the values they had
when it began, writes a fault code, and leaves no transaction outstanding. The fault's entry is the spec's decisions D10 and D13. -/
def Obligations.FaultsArePrecise : Prop :=
  ∀ s t : State, s.Inv → s.runState = .running → step s = .next t → t.runState = .faulted →
    t.pc = s.pc ∧ t.acc = s.acc ∧ t.bak = s.bak ∧ t.last = s.last ∧ t.opa = s.opa ∧ t.faultCode ≠ .noFault ∧
    t.outstanding = none

/-- R122, R123 (the spec's decisions D10, D12 and D18), R96, R127: every fault a step can record, with its cause and its FAULT_INFO;
an illegal selector byte of the source comes before one of the destination. The causes and their order are the spec's decisions D3,
D6, D7, D14 and D15; the list of answers is log entry 6. -/
def Obligations.EveryFaultHasItsCause : Prop :=
  ∀ s t : State, s.Inv → s.runState = .running → step s = .next t → t.runState = .faulted →
    match t.faultCode with
    | .noFault => False
    | .decodeError => s.phase = .ready ∧ ∃ w b0, s.fetch = .record w ∧ decode w = .illegal b0 ∧ t.faultInfo = decodeInfo b0
    | .portError => ∃ q k rest, s.outstanding = some q ∧ s.replies = some (.err k) :: rest ∧
        ((∃ p, q = .read p ∧ t.faultInfo = portInfo p .read k) ∨ (∃ p u, q = .write p u ∧ t.faultInfo = portInfo p .write k))
    | .selectorError => s.phase = .ready ∧ ∃ w i, s.fetch = .record w ∧ decode w = .decoded i ∧
        ((∃ b, i.operandA? = some (.sel b) ∧ ¬ LegalSelector b ∧ t.faultInfo = selectorInfo .src b) ∨
         (∃ a d, i = .mov a d ∧ (∀ b, a = .sel b → LegalSelector b) ∧ ¬ LegalSelector d ∧ t.faultInfo = selectorInfo .dst d))
    | .fetchBoundsError => s.phase = .ready ∧ s.pc.toNat < s.progLen.toNat ∧ s.progLen.toNat < s.pc.toNat + 4 ∧
        t.faultInfo = boundsInfo s.pc s.progLen
    | .jroRangeError => s.phase = .ready ∧ s.acc.toInt < 0 ∧ s.jroNegPolicy = .fault ∧ t.faultInfo = jroInfo s.acc ∧
        ∃ w, s.fetch = .record w ∧ decode w = .decoded .jro

/-- R92, R129, R140: a run halts in exactly the steps that begin an instruction at or past the end of the program. How a run ends is
the spec's decision D21. -/
def Obligations.RunsHaltOnlyAtTheEnd : Prop :=
  ∀ s t : State, s.runState = .running → step s = .next t →
    (t.runState = .halted ↔ s.phase = .ready ∧ s.progLen.toNat ≤ s.pc.toNat)

/-- R25 (the spec's decision D20): what IR and OPA hold when an instruction step begins changes nothing but themselves, and neither
is left from before where a later step will read it. So the model's reset values of IR and OPA (log entries 1 and 2) cannot be seen.
That OPA is written by every MOV is log entry 15. -/
def Obligations.HiddenLatchesAreNeverReadEarly : Prop :=
  ∀ (s t : State) (x : Record) (y : Value), s.runState = .running → s.phase = .ready → step s = .next t →
    ∃ t' : State, step { s with ir := x, opa := y } = .next t' ∧ { t' with ir := t.ir, opa := t.opa } = t ∧
      (t.phase ≠ .ready → t'.ir = t.ir) ∧ (t.phase = .waitDst → t'.opa = t.opa)

/-- R134 (derived in the spec from R49 and R78), R106: what a console line device's answer for each first byte becomes, through a
MOV to ACC that was waiting for it. For 0x00 to 0xFC the Value is R134's. For 0xFD to 0xFF R134 says -999 and R78 to R80 give -768,
-512 and -256, which the model follows (log entry 17). That destination byte 1 is ACC is R62, the spec's decision D2 (log entry 14).
The lists of answers and of transactions are log entries 6 and 7. It rests on the spec's decisions D5, D11 and D20 too. -/
def Obligations.ConsoleAnswersEnterClamped : Prop :=
  ∀ (s : State) (a : Operand) (ch rec : Port) (c : Byte) (rest : List (Option Reply)),
    s.phase = .waitSrc → sourceOf s a = .port ch rec → s.replies = some (consoleAnswer c) :: rest →
    ∃ v : Value,
      exec (.mov a 1) s = .next { s with
        opa := v, acc := v, last := rec, pc := s.pc + 4, phase := .ready, replies := rest,
        log := s.log ++ [⟨.read ch, consoleAnswer c⟩] } ∧
      v.toInt =
        if c.toNat < 4 then (c.toNat : Int) * 256
        else if c.toNat < 128 then 999
        else if c.toNat < 253 then -999
        else ((c.toNat : Int) - 256) * 256
end

