-- ==== Sys2Proof/Laws/Value.lean ====
section
/-! SUPPORT. The value unit as integers: every function that builds a Value is read back through `toInt` as a clamped integer. -/

namespace Sys2Proof.Machine

/-- What the clamp can answer (R77). -/
theorem clamp_cases (n : Int) :
    (n > 999 ∧ clamp n = 999) ∨ (n < -999 ∧ clamp n = -999) ∨ (-999 ≤ n ∧ n ≤ 999 ∧ clamp n = n) := by
  unfold clamp vmax vmin
  split
  · omega
  · split <;> omega

/-- Reading the pattern of a clamped integer gives the clamped integer back. -/
theorem toInt_ofClamped (n : Int) : (ofClamped n).toInt = clamp n := by
  have h := clamp_cases n
  have : -999 ≤ clamp n ∧ clamp n ≤ 999 := by omega
  unfold ofClamped
  rw [BitVec.toInt_ofInt, Int.bmod_def]
  norm_num
  split <;> omega

/-- The pattern of a clamped integer is a Value (R76). -/
theorem inRange_ofClamped (n : Int) : (ofClamped n).InRange := by
  have h := clamp_cases n
  have := toInt_ofClamped n
  unfold Value.InRange vmin vmax
  omega

/-- The clamp leaves the pattern of a Value alone. -/
theorem ofClamped_toInt_of_inRange {v : Value} (h : v.InRange) : ofClamped v.toInt = v := by
  apply BitVec.eq_of_toInt_eq
  have h' := clamp_cases v.toInt
  unfold Value.InRange vmin vmax at h
  rw [toInt_ofClamped]
  omega

/-- Every port read and every literal enters as a Value (R49, R72). -/
theorem inRange_fromPattern (u : BitVec 16) : (fromPattern u).InRange := inRange_ofClamped _

theorem inRange_addValue (a b : Value) : (addValue a b).InRange := inRange_ofClamped _

theorem inRange_subValue (a b : Value) : (subValue a b).InRange := inRange_ofClamped _

theorem inRange_negateValue (a : Value) : (negateValue a).InRange := inRange_ofClamped _

/-- R79 and R80 alone fix what the console patterns FD00, FE00 and FF00 enter as (log entry 17): any reading of two bytes that gives
every Value back from its pattern gives these. -/
theorem console_patterns_forced {f : Byte → Byte → Value}
    (h : ∀ v : Value, v.InRange → f (toBytes v).1 (toBytes v).2 = v) :
    f 0xFD 0 = -768 ∧ f 0xFE 0 = -512 ∧ f 0xFF 0 = -256 := by
  have value {hi lo : Byte} (v : Value) (hv : v.InRange) (e : toBytes v = (hi, lo)) : f hi lo = v := by
    simpa only [e] using h v hv
  exact ⟨value _ (by decide) (by decide), value _ (by decide) (by decide), value _ (by decide) (by decide)⟩

/-- The unit's results are those of its functions (R90). -/
theorem valueUnit_result (op : ValueOp) (a b : Value) :
    (valueUnit op a b).result =
      match op with
      | .add => addValue a b
      | .sub => subValue a b
      | .negate => negateValue a
      | .fromBytes => fromPattern a
      | .pass => a := rfl

end Sys2Proof.Machine
end

