-- ==== Sys2Proof/Laws/Decode.lean ====
section
/-! SUPPORT. The tables of the decoder read both ways, and what a decoded instruction's operands are. -/

namespace Sys2Proof

theorem opcodeOf_opcodeNumber (o : Opcode) : opcodeOf (opcodeNumber o) = some o := by cases o <;> decide

theorem selectorOf_selectorByte (x : Selector) : selectorOf (selectorByte x) = some x := by cases x <;> decide

/-- The four selector bytes, and no other byte, name something (R62). -/
theorem selectorOf_cases (b : Byte) :
    (b = 0 ∧ selectorOf b = some .last) ∨ (b = 1 ∧ selectorOf b = some .accumulator) ∨
      (b = 2 ∧ selectorOf b = some .upPort) ∨ (b = 3 ∧ selectorOf b = some .downPort) ∨
      (4 ≤ b.toNat ∧ selectorOf b = none) := by
  revert b; decide

/-- Concatenation as a number (R7). -/
theorem toNat_append_add {m n : Nat} (x : BitVec m) (y : BitVec n) : (x ++ y).toNat = x.toNat * 2 ^ n + y.toNat := by
  rw [BitVec.toNat_append, ← Nat.shiftLeft_add_eq_or_of_lt y.isLt, Nat.shiftLeft_eq]

/-- The record as a number (R7). -/
theorem toNat_recordOf (b0 b1 b2 b3 : Byte) :
    (recordOf b0 b1 b2 b3).toNat = b0.toNat * 2 ^ 24 + b1.toNat * 2 ^ 16 + b2.toNat * 2 ^ 8 + b3.toNat := by
  show (b0 ++ b1 ++ b2 ++ b3).toNat = _
  simp only [toNat_append_add]
  omega

/-- The bytes of a record are those it was put together from (R7). -/
theorem recordByte_recordOf (b0 b1 b2 b3 : Byte) :
    recordByte (recordOf b0 b1 b2 b3) 0 = b0 ∧ recordByte (recordOf b0 b1 b2 b3) 1 = b1 ∧
      recordByte (recordOf b0 b1 b2 b3) 2 = b2 ∧ recordByte (recordOf b0 b1 b2 b3) 3 = b3 := by
  have := b0.isLt
  have := b1.isLt
  have := b2.isLt
  have := b3.isLt
  refine ⟨?_, ?_, ?_, ?_⟩ <;> apply BitVec.eq_of_toNat_eq <;>
    simp only [recordByte, BitVec.extractLsb'_toNat, Nat.shiftRight_eq_div_pow, toNat_recordOf] <;> omega

/-- Decoding a latched record is decoding its four bytes (R71). -/
theorem decode_recordOf (b0 b1 b2 b3 : Byte) : decode (recordOf b0 b1 b2 b3) = decodeBytes b0 b1 b2 b3 := by
  obtain ⟨h0, h1, h2, h3⟩ := recordByte_recordOf b0 b1 b2 b3
  simp only [decode, h0, h1, h2, h3]

/-- A word is the record of its own bytes. -/
theorem recordOf_recordByte (w : Record) :
    recordOf (recordByte w 0) (recordByte w 1) (recordByte w 2) (recordByte w 3) = w := by
  have := w.isLt
  apply BitVec.eq_of_toNat_eq
  simp only [recordByte, BitVec.extractLsb'_toNat, Nat.shiftRight_eq_div_pow, toNat_recordOf]
  omega

/-- The literal of a decoded operand is a Value (R72). -/
theorem operandOf_wellFormed (b0 b1 b2 b3 : Byte) : (operandOf (fieldsOf b0 b1 b2 b3)).WellFormed := by
  unfold operandOf
  split
  · exact Machine.inRange_fromPattern _
  · trivial

/-- A decoded operand A with a literal holds a Value (R72). -/
theorem decode_literal_inRange {w : Record} {i : Instr} {v : Value} (h : decode w = .decoded i)
    (ha : i.operandA? = some (.lit v)) : v.InRange := by
  unfold decode decodeBytes at h
  split at h
  · rename_i o _
    have hw := operandOf_wellFormed (recordByte w 0) (recordByte w 1) (recordByte w 2) (recordByte w 3)
    injection h with h
    subst h
    cases o <;> simp only [instrOf, Instr.operandA?, Option.some.injEq, reduceCtorEq] at ha <;>
      · rw [ha] at hw
        exact hw
  · cases h

end Sys2Proof
end

