-- ==== Sys2Proof/Laws/Memory.lean ====
section
/-! SUPPORT. Program memory: reads after writes, and every operation keeps the canonical form. -/

namespace Sys2Proof.Machine

/-- Below the first address of a rising list nothing is listed. -/
theorem Memory.get_below {lo a : Nat} {m : List Host.Cell} (h : Memory.risingFrom lo m = true) (ha : a < lo) :
    Memory.get m a = Memory.unlisted := by
  induction m generalizing lo with
  | nil => rfl
  | cons c m ih =>
    simp only [Memory.risingFrom, Bool.and_eq_true, decide_eq_true_eq] at h
    have hne : c.1 ≠ a := by omega
    simp only [Memory.get, if_neg hne]
    exact ih h.2 (by omega)

/-- A rising list rises from any lower address. -/
theorem Memory.risingFrom_mono {lo lo' : Nat} {m : List Host.Cell} (h : Memory.risingFrom lo m = true) (hl : lo' ≤ lo) :
    Memory.risingFrom lo' m = true := by
  cases m with
  | nil => rfl
  | cons c m =>
    simp only [Memory.risingFrom, Bool.and_eq_true, decide_eq_true_eq] at h ⊢
    exact ⟨⟨by omega, h.1.2⟩, h.2⟩

theorem Memory.get_cons_same {a : Nat} {b : Byte} {m : List Host.Cell} (h : Memory.get m a = Memory.unlisted) :
    Memory.get (Memory.cons a b m) a = b := by
  unfold Memory.cons
  split
  · rename_i hb; rw [h, hb]
  · simp [Memory.get]

theorem Memory.get_cons_other {a a' : Nat} {b : Byte} {m : List Host.Cell} (h : a' ≠ a) :
    Memory.get (Memory.cons a b m) a' = Memory.get m a' := by
  unfold Memory.cons
  split
  · rfl
  · simp [Memory.get, Ne.symm h]

theorem Memory.risingFrom_cons {lo a : Nat} {b : Byte} {m : List Host.Cell} (hl : lo ≤ a)
    (h : Memory.risingFrom (a + 1) m = true) : Memory.risingFrom lo (Memory.cons a b m) = true := by
  unfold Memory.cons
  split
  · exact Memory.risingFrom_mono h (by omega)
  · rename_i hb
    simp [Memory.risingFrom, hl, h, hb]

/-- A read after a write to the same address gives the byte written. -/
theorem Memory.get_write_same {lo a : Nat} {b : Byte} {m : List Host.Cell} (h : Memory.risingFrom lo m = true) :
    Memory.get (Memory.write m a b) a = b := by
  induction m generalizing lo with
  | nil => exact Memory.get_cons_same rfl
  | cons c m ih =>
    have h' := h
    simp only [Memory.risingFrom, Bool.and_eq_true, decide_eq_true_eq] at h'
    simp only [Memory.write]
    split
    · refine Memory.get_cons_same (Memory.get_below (lo := c.1) ?_ ‹_›)
      simp only [Memory.risingFrom, Bool.and_eq_true, decide_eq_true_eq]
      exact ⟨⟨by omega, h'.1.2⟩, h'.2⟩
    · split
      · rename_i hac
        subst hac
        exact Memory.get_cons_same (Memory.get_below h'.2 (by omega))
      · rename_i h1 h2
        simp only [Memory.get, if_neg (Ne.symm h2)]
        exact ih h'.2

/-- A write leaves every other address alone. -/
theorem Memory.get_write_other {a a' : Nat} {b : Byte} {m : List Host.Cell} (hne : a' ≠ a) :
    Memory.get (Memory.write m a b) a' = Memory.get m a' := by
  induction m with
  | nil => exact Memory.get_cons_other hne
  | cons c m ih =>
    simp only [Memory.write]
    split
    · exact Memory.get_cons_other hne
    · split
      · rename_i hac
        subst hac
        rw [Memory.get_cons_other hne]
        simp [Memory.get, Ne.symm hne]
      · simp only [Memory.get, ih]

theorem Memory.risingFrom_write {lo a : Nat} {b : Byte} {m : List Host.Cell} (h : Memory.risingFrom lo m = true)
    (hl : lo ≤ a) : Memory.risingFrom lo (Memory.write m a b) = true := by
  induction m generalizing lo with
  | nil => exact Memory.risingFrom_cons hl rfl
  | cons c m ih =>
    have h' := h
    simp only [Memory.risingFrom, Bool.and_eq_true, decide_eq_true_eq] at h'
    simp only [Memory.write]
    split
    · refine Memory.risingFrom_cons hl ?_
      simp only [Memory.risingFrom, Bool.and_eq_true, decide_eq_true_eq]
      exact ⟨⟨by omega, h'.1.2⟩, h'.2⟩
    · split
      · rename_i hac
        subst hac
        exact Memory.risingFrom_cons hl h'.2
      · simp only [Memory.risingFrom, Bool.and_eq_true, decide_eq_true_eq]
        exact ⟨⟨h'.1.1, h'.1.2⟩, ih h'.2 (by omega)⟩

/-- A write keeps the canonical form. -/
theorem Memory.wf_write {a : Nat} {b : Byte} {m : List Host.Cell} (h : Memory.wf m = true) :
    Memory.wf (Memory.write m a b) = true := Memory.risingFrom_write h (by omega)

/-- A write of several bytes keeps the canonical form. -/
theorem Memory.wf_writeBytes {bs : List Byte} {a : Nat} {m : List Host.Cell} (h : Memory.wf m = true) :
    Memory.wf (Memory.writeBytes m a bs) = true := by
  induction bs generalizing a m with
  | nil => exact h
  | cons b bs ih => exact ih (Memory.wf_write h)

/-- The program a host loads is canonical. -/
theorem Memory.wf_load (bs : List Byte) : Memory.wf (Memory.writeBytes [] 0 bs) = true := Memory.wf_writeBytes rfl

theorem Memory.below_write {n a : Nat} {b : Byte} {m : List Host.Cell} (h : Memory.below n m = true) (ha : a < n) :
    Memory.below n (Memory.write m a b) = true := by
  induction m with
  | nil =>
    simp only [Memory.write, Memory.cons]
    split <;> simp [Memory.below, ha]
  | cons c m ih =>
    simp only [Memory.below, List.all_cons, Bool.and_eq_true, decide_eq_true_eq] at h ih ⊢
    simp only [Memory.write, Memory.cons]
    split
    · split <;> simp [ha, h]
    · split
      · split <;> simp [ha, h]
      · simp only [List.all_cons, Bool.and_eq_true, decide_eq_true_eq]
        exact ⟨h.1, ih h.2⟩

/-- Bytes written inside the program stay inside it. -/
theorem Memory.below_writeBytes {n : Nat} {bs : List Byte} {a : Nat} {m : List Host.Cell} (h : Memory.below n m = true)
    (ha : a + bs.length ≤ n) : Memory.below n (Memory.writeBytes m a bs) = true := by
  induction bs generalizing a m with
  | nil => exact h
  | cons b bs ih =>
    simp only [List.length_cons] at ha
    exact ih (Memory.below_write h (by omega)) (by omega)

end Sys2Proof.Machine
end

