-- ==== Sys2Proof/Laws/State.lean ====
section
/-! SUPPORT. What each named update of the state does to each field: one lemma per field per update. -/

namespace Sys2Proof.Machine

variable (s : State)

section halt
@[simp] theorem State.halt_acc : s.halt.acc = s.acc := rfl
@[simp] theorem State.halt_bak : s.halt.bak = s.bak := rfl
@[simp] theorem State.halt_last : s.halt.last = s.last := rfl
@[simp] theorem State.halt_pc : s.halt.pc = s.pc := rfl
@[simp] theorem State.halt_runState : s.halt.runState = .halted := rfl
@[simp] theorem State.halt_faultCode : s.halt.faultCode = s.faultCode := rfl
@[simp] theorem State.halt_faultInfo : s.halt.faultInfo = s.faultInfo := rfl
@[simp] theorem State.halt_phase : s.halt.phase = s.phase := rfl
@[simp] theorem State.halt_ir : s.halt.ir = s.ir := rfl
@[simp] theorem State.halt_opa : s.halt.opa = s.opa := rfl
@[simp] theorem State.halt_prog : s.halt.prog = s.prog := rfl
@[simp] theorem State.halt_progLen : s.halt.progLen = s.progLen := rfl
@[simp] theorem State.halt_downReadMode : s.halt.downReadMode = s.downReadMode := rfl
@[simp] theorem State.halt_jroNegPolicy : s.halt.jroNegPolicy = s.jroNegPolicy := rfl
@[simp] theorem State.halt_replies : s.halt.replies = s.replies := rfl
@[simp] theorem State.halt_log : s.halt.log = s.log := rfl
end halt

section raiseFault
variable (c : FaultCode) (info : BitVec 64)
@[simp] theorem State.raiseFault_acc : (s.raiseFault c info).acc = s.acc := rfl
@[simp] theorem State.raiseFault_bak : (s.raiseFault c info).bak = s.bak := rfl
@[simp] theorem State.raiseFault_last : (s.raiseFault c info).last = s.last := rfl
@[simp] theorem State.raiseFault_pc : (s.raiseFault c info).pc = s.pc := rfl
@[simp] theorem State.raiseFault_runState : (s.raiseFault c info).runState = .faulted := rfl
@[simp] theorem State.raiseFault_faultCode : (s.raiseFault c info).faultCode = c := rfl
@[simp] theorem State.raiseFault_faultInfo : (s.raiseFault c info).faultInfo = info := rfl
@[simp] theorem State.raiseFault_phase : (s.raiseFault c info).phase = .ready := rfl
@[simp] theorem State.raiseFault_ir : (s.raiseFault c info).ir = s.ir := rfl
@[simp] theorem State.raiseFault_opa : (s.raiseFault c info).opa = s.opa := rfl
@[simp] theorem State.raiseFault_prog : (s.raiseFault c info).prog = s.prog := rfl
@[simp] theorem State.raiseFault_progLen : (s.raiseFault c info).progLen = s.progLen := rfl
@[simp] theorem State.raiseFault_downReadMode : (s.raiseFault c info).downReadMode = s.downReadMode := rfl
@[simp] theorem State.raiseFault_jroNegPolicy : (s.raiseFault c info).jroNegPolicy = s.jroNegPolicy := rfl
@[simp] theorem State.raiseFault_replies : (s.raiseFault c info).replies = s.replies := rfl
@[simp] theorem State.raiseFault_log : (s.raiseFault c info).log = s.log := rfl
end raiseFault

section raiseSelector
variable (f : SelField) (b : Byte)
@[simp] theorem State.raiseSelector_acc : (s.raiseSelector f b).acc = s.acc := rfl
@[simp] theorem State.raiseSelector_bak : (s.raiseSelector f b).bak = s.bak := rfl
@[simp] theorem State.raiseSelector_last : (s.raiseSelector f b).last = s.last := rfl
@[simp] theorem State.raiseSelector_pc : (s.raiseSelector f b).pc = s.pc := rfl
@[simp] theorem State.raiseSelector_runState : (s.raiseSelector f b).runState = .faulted := rfl
@[simp] theorem State.raiseSelector_faultCode : (s.raiseSelector f b).faultCode = .selectorError := rfl
@[simp] theorem State.raiseSelector_faultInfo : (s.raiseSelector f b).faultInfo = selectorInfo f b := rfl
@[simp] theorem State.raiseSelector_phase : (s.raiseSelector f b).phase = .ready := rfl
@[simp] theorem State.raiseSelector_ir : (s.raiseSelector f b).ir = s.ir := rfl
@[simp] theorem State.raiseSelector_opa : (s.raiseSelector f b).opa = s.opa := rfl
@[simp] theorem State.raiseSelector_prog : (s.raiseSelector f b).prog = s.prog := rfl
@[simp] theorem State.raiseSelector_progLen : (s.raiseSelector f b).progLen = s.progLen := rfl
@[simp] theorem State.raiseSelector_downReadMode : (s.raiseSelector f b).downReadMode = s.downReadMode := rfl
@[simp] theorem State.raiseSelector_jroNegPolicy : (s.raiseSelector f b).jroNegPolicy = s.jroNegPolicy := rfl
@[simp] theorem State.raiseSelector_replies : (s.raiseSelector f b).replies = s.replies := rfl
@[simp] theorem State.raiseSelector_log : (s.raiseSelector f b).log = s.log := rfl
end raiseSelector

section advance
@[simp] theorem State.advance_acc : s.advance.acc = s.acc := rfl
@[simp] theorem State.advance_bak : s.advance.bak = s.bak := rfl
@[simp] theorem State.advance_last : s.advance.last = s.last := rfl
@[simp] theorem State.advance_pc : s.advance.pc = s.pc + 4 := rfl
@[simp] theorem State.advance_runState : s.advance.runState = s.runState := rfl
@[simp] theorem State.advance_faultCode : s.advance.faultCode = s.faultCode := rfl
@[simp] theorem State.advance_faultInfo : s.advance.faultInfo = s.faultInfo := rfl
@[simp] theorem State.advance_phase : s.advance.phase = s.phase := rfl
@[simp] theorem State.advance_ir : s.advance.ir = s.ir := rfl
@[simp] theorem State.advance_opa : s.advance.opa = s.opa := rfl
@[simp] theorem State.advance_prog : s.advance.prog = s.prog := rfl
@[simp] theorem State.advance_progLen : s.advance.progLen = s.progLen := rfl
@[simp] theorem State.advance_downReadMode : s.advance.downReadMode = s.downReadMode := rfl
@[simp] theorem State.advance_jroNegPolicy : s.advance.jroNegPolicy = s.jroNegPolicy := rfl
@[simp] theorem State.advance_replies : s.advance.replies = s.replies := rfl
@[simp] theorem State.advance_log : s.advance.log = s.log := rfl
end advance

section hold
variable (p : Phase)
@[simp] theorem State.hold_acc : (s.hold p).acc = s.acc := rfl
@[simp] theorem State.hold_bak : (s.hold p).bak = s.bak := rfl
@[simp] theorem State.hold_last : (s.hold p).last = s.last := rfl
@[simp] theorem State.hold_pc : (s.hold p).pc = s.pc := rfl
@[simp] theorem State.hold_runState : (s.hold p).runState = s.runState := rfl
@[simp] theorem State.hold_faultCode : (s.hold p).faultCode = s.faultCode := rfl
@[simp] theorem State.hold_faultInfo : (s.hold p).faultInfo = s.faultInfo := rfl
@[simp] theorem State.hold_phase : (s.hold p).phase = p := rfl
@[simp] theorem State.hold_ir : (s.hold p).ir = s.ir := rfl
@[simp] theorem State.hold_opa : (s.hold p).opa = s.opa := rfl
@[simp] theorem State.hold_prog : (s.hold p).prog = s.prog := rfl
@[simp] theorem State.hold_progLen : (s.hold p).progLen = s.progLen := rfl
@[simp] theorem State.hold_downReadMode : (s.hold p).downReadMode = s.downReadMode := rfl
@[simp] theorem State.hold_jroNegPolicy : (s.hold p).jroNegPolicy = s.jroNegPolicy := rfl
@[simp] theorem State.hold_replies : (s.hold p).replies = s.replies := rfl
@[simp] theorem State.hold_log : (s.hold p).log = s.log := rfl
end hold

section complete
@[simp] theorem State.complete_acc : s.complete.acc = s.acc := rfl
@[simp] theorem State.complete_bak : s.complete.bak = s.bak := rfl
@[simp] theorem State.complete_last : s.complete.last = s.last := rfl
@[simp] theorem State.complete_pc : s.complete.pc = s.pc + 4 := rfl
@[simp] theorem State.complete_runState : s.complete.runState = s.runState := rfl
@[simp] theorem State.complete_faultCode : s.complete.faultCode = s.faultCode := rfl
@[simp] theorem State.complete_faultInfo : s.complete.faultInfo = s.faultInfo := rfl
@[simp] theorem State.complete_phase : s.complete.phase = .ready := rfl
@[simp] theorem State.complete_ir : s.complete.ir = s.ir := rfl
@[simp] theorem State.complete_opa : s.complete.opa = s.opa := rfl
@[simp] theorem State.complete_prog : s.complete.prog = s.prog := rfl
@[simp] theorem State.complete_progLen : s.complete.progLen = s.progLen := rfl
@[simp] theorem State.complete_downReadMode : s.complete.downReadMode = s.downReadMode := rfl
@[simp] theorem State.complete_jroNegPolicy : s.complete.jroNegPolicy = s.jroNegPolicy := rfl
@[simp] theorem State.complete_replies : s.complete.replies = s.replies := rfl
@[simp] theorem State.complete_log : s.complete.log = s.log := rfl
end complete

section answered
variable (q : Request) (r : Reply) (rest : List (Option Reply))
@[simp] theorem State.answered_acc : (s.answered q r rest).acc = s.acc := rfl
@[simp] theorem State.answered_bak : (s.answered q r rest).bak = s.bak := rfl
@[simp] theorem State.answered_last : (s.answered q r rest).last = s.last := rfl
@[simp] theorem State.answered_pc : (s.answered q r rest).pc = s.pc := rfl
@[simp] theorem State.answered_runState : (s.answered q r rest).runState = s.runState := rfl
@[simp] theorem State.answered_faultCode : (s.answered q r rest).faultCode = s.faultCode := rfl
@[simp] theorem State.answered_faultInfo : (s.answered q r rest).faultInfo = s.faultInfo := rfl
@[simp] theorem State.answered_phase : (s.answered q r rest).phase = s.phase := rfl
@[simp] theorem State.answered_ir : (s.answered q r rest).ir = s.ir := rfl
@[simp] theorem State.answered_opa : (s.answered q r rest).opa = s.opa := rfl
@[simp] theorem State.answered_prog : (s.answered q r rest).prog = s.prog := rfl
@[simp] theorem State.answered_progLen : (s.answered q r rest).progLen = s.progLen := rfl
@[simp] theorem State.answered_downReadMode : (s.answered q r rest).downReadMode = s.downReadMode := rfl
@[simp] theorem State.answered_jroNegPolicy : (s.answered q r rest).jroNegPolicy = s.jroNegPolicy := rfl
@[simp] theorem State.answered_replies : (s.answered q r rest).replies = rest := rfl
@[simp] theorem State.answered_log : (s.answered q r rest).log = s.log ++ [⟨q, r⟩] := rfl
end answered

section jumpTo
variable (t : BitVec 24)
@[simp] theorem State.jumpTo_acc : (s.jumpTo t).acc = s.acc := rfl
@[simp] theorem State.jumpTo_bak : (s.jumpTo t).bak = s.bak := rfl
@[simp] theorem State.jumpTo_last : (s.jumpTo t).last = s.last := rfl
@[simp] theorem State.jumpTo_pc : (s.jumpTo t).pc = t.setWidth 32 := rfl
@[simp] theorem State.jumpTo_runState : (s.jumpTo t).runState = s.runState := rfl
@[simp] theorem State.jumpTo_faultCode : (s.jumpTo t).faultCode = s.faultCode := rfl
@[simp] theorem State.jumpTo_faultInfo : (s.jumpTo t).faultInfo = s.faultInfo := rfl
@[simp] theorem State.jumpTo_phase : (s.jumpTo t).phase = s.phase := rfl
@[simp] theorem State.jumpTo_ir : (s.jumpTo t).ir = s.ir := rfl
@[simp] theorem State.jumpTo_opa : (s.jumpTo t).opa = s.opa := rfl
@[simp] theorem State.jumpTo_prog : (s.jumpTo t).prog = s.prog := rfl
@[simp] theorem State.jumpTo_progLen : (s.jumpTo t).progLen = s.progLen := rfl
@[simp] theorem State.jumpTo_downReadMode : (s.jumpTo t).downReadMode = s.downReadMode := rfl
@[simp] theorem State.jumpTo_jroNegPolicy : (s.jumpTo t).jroNegPolicy = s.jroNegPolicy := rfl
@[simp] theorem State.jumpTo_replies : (s.jumpTo t).replies = s.replies := rfl
@[simp] theorem State.jumpTo_log : (s.jumpTo t).log = s.log := rfl
end jumpTo

section withParameters
variable (mode : DownReadMode) (policy : JroNegPolicy)
@[simp] theorem State.withParameters_acc : (s.withParameters mode policy).acc = s.acc := rfl
@[simp] theorem State.withParameters_bak : (s.withParameters mode policy).bak = s.bak := rfl
@[simp] theorem State.withParameters_last : (s.withParameters mode policy).last = s.last := rfl
@[simp] theorem State.withParameters_pc : (s.withParameters mode policy).pc = s.pc := rfl
@[simp] theorem State.withParameters_runState : (s.withParameters mode policy).runState = s.runState := rfl
@[simp] theorem State.withParameters_faultCode : (s.withParameters mode policy).faultCode = s.faultCode := rfl
@[simp] theorem State.withParameters_faultInfo : (s.withParameters mode policy).faultInfo = s.faultInfo := rfl
@[simp] theorem State.withParameters_phase : (s.withParameters mode policy).phase = s.phase := rfl
@[simp] theorem State.withParameters_ir : (s.withParameters mode policy).ir = s.ir := rfl
@[simp] theorem State.withParameters_opa : (s.withParameters mode policy).opa = s.opa := rfl
@[simp] theorem State.withParameters_prog : (s.withParameters mode policy).prog = s.prog := rfl
@[simp] theorem State.withParameters_progLen : (s.withParameters mode policy).progLen = s.progLen := rfl
@[simp] theorem State.withParameters_downReadMode : (s.withParameters mode policy).downReadMode = mode := rfl
@[simp] theorem State.withParameters_jroNegPolicy : (s.withParameters mode policy).jroNegPolicy = policy := rfl
@[simp] theorem State.withParameters_replies : (s.withParameters mode policy).replies = s.replies := rfl
@[simp] theorem State.withParameters_log : (s.withParameters mode policy).log = s.log := rfl
end withParameters

end Sys2Proof.Machine
end

