-- ==== Sys2Proof/Laws/Ops.lean ====
section
/-! SUPPORT. One lemma per shared operation, which says everything it can do. -/

namespace Sys2Proof.Machine

/-- R31: a read of four bytes succeeds exactly inside the program, and gives four bytes. -/
theorem State.memRead_four (s : State) (a : Nat) :
    (a + 4 ≤ s.progLen.toNat ∧ s.memRead a 4 =
      some [Memory.get s.prog a, Memory.get s.prog (a + 1), Memory.get s.prog (a + 2), Memory.get s.prog (a + 3)]) ∨
    (s.progLen.toNat < a + 4 ∧ s.memRead a 4 = none) := by
  unfold State.memRead
  split
  · exact .inl ⟨‹_›, rfl⟩
  · exact .inr ⟨by omega, rfl⟩

/-- R37: the three things a fetch can find, each with the place of PC that makes it so. -/
theorem State.fetch_cases (s : State) :
    (s.progLen.toNat ≤ s.pc.toNat ∧ s.fetch = .atEnd) ∨
    (s.pc.toNat < s.progLen.toNat ∧ s.progLen.toNat < s.pc.toNat + 4 ∧ s.fetch = .truncated) ∨
    (s.pc.toNat + 4 ≤ s.progLen.toNat ∧ s.fetch =
      .record (recordOf (Memory.get s.prog s.pc.toNat) (Memory.get s.prog (s.pc.toNat + 1))
        (Memory.get s.prog (s.pc.toNat + 2)) (Memory.get s.prog (s.pc.toNat + 3)))) := by
  unfold State.fetch
  split
  · exact .inl ⟨‹_›, rfl⟩
  · obtain ⟨h, e⟩ | ⟨h, e⟩ := s.memRead_four s.pc.toNat
    · exact .inr (.inr ⟨h, by rw [e]⟩)
    · exact .inr (.inl ⟨by omega, h, by rw [e]⟩)

/-- A record that was fetched lies inside the program, so `PC + 4` does not wrap (R98). -/
theorem State.fetch_record_le {s : State} {w : Record} (h : s.fetch = .record w) : s.pc.toNat + 4 ≤ s.progLen.toNat := by
  obtain ⟨_, e⟩ | ⟨_, _, e⟩ | ⟨hle, _⟩ := s.fetch_cases
  · rw [e] at h; cases h
  · rw [e] at h; cases h
  · exact hle

/-- The fetch looks at PC and the program alone (R34, R73). -/
theorem State.fetch_congr {s t : State} (hpc : t.pc = s.pc) (hp : t.prog = s.prog) (hl : t.progLen = s.progLen) :
    t.fetch = s.fetch := by
  unfold State.fetch State.memRead
  rw [hpc, hp, hl]

/-- The four ways a wait for a read can go on (R100, R101). -/
theorem awaitRead_cases (s : State) (ch rec : Port) (k : State → Value → State) :
    (s.replies = [] ∧ awaitRead s ch rec k = s) ∨
    (∃ rest, s.replies = none :: rest ∧ awaitRead s ch rec k = { s with replies := rest }) ∨
    (∃ e rest, s.replies = some (.err e) :: rest ∧ awaitRead s ch rec k =
      (s.answered (.read ch) (.err e) rest).raiseFault .portError (portInfo ch .read e)) ∨
    (∃ u rest, s.replies = some (.ok u) :: rest ∧ awaitRead s ch rec k =
      k { s.answered (.read ch) (.ok u) rest with last := rec } (fromPattern u)) := by
  unfold awaitRead
  split <;> simp_all

/-- The four ways a wait for a write can go on (R100, R101). -/
theorem awaitWrite_cases (s : State) (p : Port) :
    (s.replies = [] ∧ awaitWrite s p = s) ∨
    (∃ rest, s.replies = none :: rest ∧ awaitWrite s p = { s with replies := rest }) ∨
    (∃ e rest, s.replies = some (.err e) :: rest ∧ awaitWrite s p =
      (s.answered (.write p s.opa) (.err e) rest).raiseFault .portError (portInfo p .write e)) ∨
    (∃ u rest, s.replies = some (.ok u) :: rest ∧ awaitWrite s p =
      { s.answered (.write p s.opa) (.ok u) rest with last := p }.complete) := by
  unfold awaitWrite
  split <;> simp_all

/-- The three ways a MOV's Value can go (R106, R45 to R47). -/
theorem movStore_cases (d : Byte) (s : State) (v : Value) :
    (destOf s d = .acc ∧ movStore d s v = { s with opa := v, acc := v }.complete) ∨
    (∃ p, destOf s d = .port p ∧ movStore d s v = { s with opa := v }.hold .waitDst) ∨
    (∃ b, destOf s d = .illegal b ∧ movStore d s v = s.raiseSelector .dst b) := by
  unfold movStore
  split <;> simp_all

/-- A read through a selector reaches ACC or a port (R41 to R44). -/
theorem readSelector_cases (s : State) (x : Selector) :
    (x = .accumulator ∧ readSelector s x = .value s.acc) ∨ (∃ ch rec, readSelector s x = .port ch rec) := by
  have hp : ∀ p, ∃ ch rec, readPort s.downReadMode p = .port ch rec := by
    intro p
    cases p <;> cases s.downReadMode <;> exact ⟨_, _, rfl⟩
  cases x
  · exact .inr (hp s.last)
  · exact .inl ⟨rfl, rfl⟩
  · exact .inr (hp .up)
  · exact .inr (hp .down)

/-- A source selector byte: ACC, a port, or illegal (R60, R67). -/
theorem sourceOf_sel_cases (s : State) (b : Byte) :
    (selectorOf b = some .accumulator ∧ sourceOf s (.sel b) = .value s.acc) ∨
    ((selectorOf b).isSome = true ∧ ∃ ch rec, sourceOf s (.sel b) = .port ch rec) ∨
    (selectorOf b = none ∧ sourceOf s (.sel b) = .illegal b) := by
  unfold sourceOf
  cases h : selectorOf b with
  | none => exact .inr (.inr ⟨rfl, by simp [h]⟩)
  | some x =>
    obtain ⟨rfl, e⟩ | ⟨ch, rec, e⟩ := readSelector_cases s x
    · exact .inl ⟨rfl, by simpa [h] using e⟩
    · exact .inr (.inl ⟨rfl, ch, rec, by simpa [h] using e⟩)

/-- A destination is illegal exactly when its byte names nothing (R67). -/
theorem destOf_illegal_iff (s : State) (d b : Byte) : destOf s d = .illegal b ↔ selectorOf d = none ∧ b = d := by
  unfold destOf
  cases h : selectorOf d with
  | none => simp [eq_comm]
  | some x => cases x <;> simp [writeSelector]

/-- A literal is never a port (R60). -/
theorem sourceOf_lit (s : State) (v : Value) : sourceOf s (.lit v) = .value v := rfl

/-- A source that is illegal is a selector byte that names nothing (R67). -/
theorem sourceOf_illegal {s : State} {a : Operand} {b : Byte} (h : sourceOf s a = .illegal b) :
    a = .sel b ∧ selectorOf b = none := by
  cases a with
  | lit v => cases h
  | sel x =>
    obtain ⟨_, e⟩ | ⟨_, _, _, e⟩ | ⟨hn, e⟩ := sourceOf_sel_cases s x <;> rw [e] at h <;> cases h
    exact ⟨rfl, hn⟩

/-- A source that is not illegal, where it is a selector byte, names something (R67). -/
theorem selectorOf_of_sourceOf {s : State} {b : Byte} (h : ∀ c, sourceOf s (.sel b) ≠ .illegal c) :
    (selectorOf b).isSome = true := by
  obtain ⟨e, _⟩ | ⟨e, _⟩ | ⟨_, e⟩ := sourceOf_sel_cases s b
  · rw [e]
    rfl
  · exact e
  · exact absurd e (h b)

/-- A source that is here at once is a literal or ACC (R42, R60). -/
theorem sourceOf_value {s : State} {a : Operand} {v : Value} (h : sourceOf s a = .value v) : a = .lit v ∨ v = s.acc := by
  cases a with
  | lit w => injection h with h; exact .inl (by rw [h])
  | sel x =>
    obtain ⟨_, e⟩ | ⟨_, _, _, e⟩ | ⟨_, e⟩ := sourceOf_sel_cases s x <;> rw [e] at h <;> cases h
    exact .inr rfl

/-- What a step of MOV is, by its phase (R96, R100, R106). -/
theorem execMov_cases {a : Operand} {d : Byte} {s t : State} (h : execMov a d s = .next t) :
    (s.phase = .ready ∧ ((∃ b, sourceOf s a = .illegal b ∧ t = s.raiseSelector .src b) ∨
      (∃ b, (destOf s d = .illegal b ∧ ∀ c, sourceOf s a ≠ .illegal c) ∧ t = s.raiseSelector .dst b) ∨
      (∃ v, (sourceOf s a = .value v ∧ (selectorOf d).isSome = true) ∧ t = movStore d s v) ∨
      (∃ ch rec, sourceOf s a = .port ch rec ∧ (selectorOf d).isSome = true ∧ t = s.hold .waitSrc))) ∨
    (s.phase = .waitSrc ∧ ∃ ch rec, sourceOf s a = .port ch rec ∧ t = awaitRead s ch rec (movStore d)) ∨
    (s.phase = .waitDst ∧ ∃ p, destOf s d = .port p ∧ t = awaitWrite s p) := by
  have legal : (∀ b, destOf s d ≠ .illegal b) → (selectorOf d).isSome = true := fun hd => by
    cases hb : selectorOf d with
    | none => exact absurd ((destOf_illegal_iff s d d).2 ⟨hb, rfl⟩) (hd d)
    | some x => rfl
  unfold execMov at h
  split at h
  · rename_i hp
    refine .inl ⟨hp, ?_⟩
    split at h <;> injection h with h <;> subst h
    · exact .inl ⟨_, ‹_›, rfl⟩
    · rename_i hd hs
      exact .inr (.inl ⟨_, ⟨hd, hs⟩, rfl⟩)
    · rename_i hs hd
      exact .inr (.inr (.inl ⟨_, ⟨hs, legal hd⟩, rfl⟩))
    · rename_i hs hd
      exact .inr (.inr (.inr ⟨_, _, hs, legal hd, rfl⟩))
  · rename_i hp
    split at h <;> cases h
    exact .inr (.inl ⟨hp, _, _, ‹_›, rfl⟩)
  · rename_i hp
    split at h <;> cases h
    exact .inr (.inr ⟨hp, _, ‹_›, rfl⟩)

/-- What a step of ADD or SUB is, by its phase (R96, R100, R109, R110). -/
theorem arithmetic_cases {f : Value → Value → Value} {a : Operand} {s t : State} (h : arithmetic f a s = .next t) :
    (s.phase = .ready ∧ ((∃ b, sourceOf s a = .illegal b ∧ t = s.raiseSelector .src b) ∨
      (∃ v, sourceOf s a = .value v ∧ t = accumulate f s v) ∨
      (∃ ch rec, sourceOf s a = .port ch rec ∧ t = s.hold .waitSrc))) ∨
    (s.phase = .waitSrc ∧ ∃ ch rec, sourceOf s a = .port ch rec ∧ t = awaitRead s ch rec (accumulate f)) := by
  unfold arithmetic at h
  split at h
  · rename_i hp
    refine .inl ⟨hp, ?_⟩
    split at h <;> injection h with h <;> subst h
    · exact .inl ⟨_, ‹_›, rfl⟩
    · exact .inr (.inl ⟨_, ‹_›, rfl⟩)
    · exact .inr (.inr ⟨_, _, ‹_›, rfl⟩)
  · rename_i hp
    split at h <;> cases h
    exact .inr ⟨hp, _, _, ‹_›, rfl⟩
  · cases h

/-- ADD and SUB from READY (R96, R99). -/
theorem arithmetic_ready {f : Value → Value → Value} {a : Operand} {s : State} (h : s.phase = .ready) :
    arithmetic f a s =
      match sourceOf s a with
      | .illegal b => .next (s.raiseSelector .src b)
      | .value v => .next (accumulate f s v)
      | .port _ _ => .next (s.hold .waitSrc) := by
  simp only [arithmetic, h] <;> rfl

/-- MOV from READY (R96, R99). -/
theorem execMov_ready {a : Operand} {d : Byte} {s : State} (h : s.phase = .ready) :
    execMov a d s =
      match sourceOf s a, destOf s d with
      | .illegal b, _ => .next (s.raiseSelector .src b)
      | _, .illegal b => .next (s.raiseSelector .dst b)
      | .value v, _ => .next (movStore d s v)
      | .port _ _, _ => .next (s.hold .waitSrc) := by
  simp only [execMov, h] <;> rfl

end Sys2Proof.Machine
end

