-- ==== Sys2Proof/Laws/PerInstr.lean ====
section
/-! SUPPORT. One fact per instruction, as syntax: the first byte of its record (30_encoding.md R56, R65, R74). -/

namespace Sys2Proof.Laws.FirstByte

/-- The record starts with three 0 bits and ends its first byte with the opcode, which is at most 12 (R65, R74). -/
def Statement (i : Instr) : Prop :=
  (recordByte (encode i) 0).extractLsb' 5 3 = 0 ∧ (recordByte (encode i) 0).extractLsb' 0 4 = opcodeNumber i.opcode ∧
    (opcodeNumber i.opcode).toNat ≤ 12

/-- The first byte of R56 read back. -/
theorem firstByte_spec (o : Opcode) (l : Bool) :
    (firstByte o l).extractLsb' 5 3 = 0 ∧ (firstByte o l).extractLsb' 0 4 = opcodeNumber o ∧
      (opcodeNumber o).toNat ≤ 12 := by
  cases o <;> cases l <;> decide

theorem recordByte_encodePlain (o : Opcode) : recordByte (encodePlain o) 0 = firstByte o false :=
  (recordByte_recordOf _ _ _ _).1

theorem recordByte_encodeOperand (o : Opcode) (a : Operand) (b : Byte) :
    ∃ l, recordByte (encodeOperand o a b) 0 = firstByte o l := by
  cases a
  · exact ⟨true, (recordByte_recordOf _ _ _ _).1⟩
  · exact ⟨false, (recordByte_recordOf _ _ _ _).1⟩

theorem recordByte_encodeTarget (o : Opcode) (t : BitVec 24) : recordByte (encodeTarget o t) 0 = firstByte o false := by
  have := t.isLt
  have h : (encodeTarget o t).toNat = (firstByte o false).toNat * 2 ^ 24 + t.toNat := toNat_append_add _ _
  apply BitVec.eq_of_toNat_eq
  simp only [recordByte, BitVec.extractLsb'_toNat, Nat.shiftRight_eq_div_pow, h]
  have := (firstByte o false).isLt
  omega

theorem plain {i : Instr} {o : Opcode} (ho : i.opcode = o) (he : encode i = encodePlain o) : Statement i := by
  unfold Statement
  rw [he, recordByte_encodePlain, ho]
  exact firstByte_spec o false

theorem operand {i : Instr} {o : Opcode} {a : Operand} {b : Byte} (ho : i.opcode = o)
    (he : encode i = encodeOperand o a b) : Statement i := by
  obtain ⟨l, h⟩ := recordByte_encodeOperand o a b
  unfold Statement
  rw [he, h, ho]
  exact firstByte_spec o l

theorem target {i : Instr} {o : Opcode} {t : BitVec 24} (ho : i.opcode = o) (he : encode i = encodeTarget o t) :
    Statement i := by
  unfold Statement
  rw [he, recordByte_encodeTarget, ho]
  exact firstByte_spec o false

theorem nop : Statement .nop := plain rfl rfl
theorem mov (a : Operand) (dst : Byte) : Statement (.mov a dst) := operand rfl rfl
theorem swp : Statement .swp := plain rfl rfl
theorem sav : Statement .sav := plain rfl rfl
theorem add (a : Operand) : Statement (.add a) := operand rfl rfl
theorem sub (a : Operand) : Statement (.sub a) := operand rfl rfl
theorem neg : Statement .neg := plain rfl rfl
theorem jmp (t : BitVec 24) : Statement (.jmp t) := target rfl rfl
theorem jez (t : BitVec 24) : Statement (.jez t) := target rfl rfl
theorem jnz (t : BitVec 24) : Statement (.jnz t) := target rfl rfl
theorem jgz (t : BitVec 24) : Statement (.jgz t) := target rfl rfl
theorem jlz (t : BitVec 24) : Statement (.jlz t) := target rfl rfl
theorem jro : Statement .jro := plain rfl rfl

end Sys2Proof.Laws.FirstByte
end

