-- ==== Sys2Proof/Laws/Step.lean ====
section
/-! SUPPORT. What one step can do: an inversion lemma for the step, one for the outstanding transaction, and the frame that every
instruction keeps. -/

namespace Sys2Proof.Machine

/-- What no instruction changes: program memory, its length, the parameters and IR (R6, R25, R32). -/
structure Frame (s t : State) : Prop where
  prog : t.prog = s.prog
  progLen : t.progLen = s.progLen
  downReadMode : t.downReadMode = s.downReadMode
  jroNegPolicy : t.jroNegPolicy = s.jroNegPolicy
  ir : t.ir = s.ir

theorem Frame.refl (s : State) : Frame s s := ⟨rfl, rfl, rfl, rfl, rfl⟩

theorem awaitRead_frame {s : State} {ch rec : Port} {k : State → Value → State} (hk : ∀ t v, Frame t (k t v)) :
    Frame s (awaitRead s ch rec k) := by
  obtain ⟨_, e⟩ | ⟨_, _, e⟩ | ⟨_, _, _, e⟩ | ⟨u, rest, _, e⟩ := awaitRead_cases s ch rec k <;> rw [e]
  · exact .refl s
  · exact ⟨rfl, rfl, rfl, rfl, rfl⟩
  · exact ⟨rfl, rfl, rfl, rfl, rfl⟩
  · have h := hk { s.answered (.read ch) (.ok u) rest with last := rec } (fromPattern u)
    exact ⟨h.prog, h.progLen, h.downReadMode, h.jroNegPolicy, h.ir⟩

theorem awaitWrite_frame (s : State) (p : Port) : Frame s (awaitWrite s p) := by
  obtain ⟨_, e⟩ | ⟨_, _, e⟩ | ⟨_, _, _, e⟩ | ⟨_, _, _, e⟩ := awaitWrite_cases s p <;> rw [e] <;>
    exact ⟨rfl, rfl, rfl, rfl, rfl⟩

theorem movStore_frame (d : Byte) (s : State) (v : Value) : Frame s (movStore d s v) := by
  obtain ⟨_, e⟩ | ⟨_, _, e⟩ | ⟨_, _, e⟩ := movStore_cases d s v <;> rw [e] <;> exact ⟨rfl, rfl, rfl, rfl, rfl⟩

theorem accumulate_frame (f : Value → Value → Value) (s : State) (v : Value) : Frame s (accumulate f s v) :=
  ⟨rfl, rfl, rfl, rfl, rfl⟩

theorem execMov_frame {a : Operand} {d : Byte} {s t : State} (h : execMov a d s = .next t) : Frame s t := by
  obtain ⟨_, ⟨_, _, rfl⟩ | ⟨_, _, rfl⟩ | ⟨_, _, rfl⟩ | ⟨_, _, _, _, rfl⟩⟩ | ⟨_, _, _, _, rfl⟩ | ⟨_, _, _, rfl⟩ :=
    execMov_cases h
  · exact ⟨rfl, rfl, rfl, rfl, rfl⟩
  · exact ⟨rfl, rfl, rfl, rfl, rfl⟩
  · exact movStore_frame ..
  · exact ⟨rfl, rfl, rfl, rfl, rfl⟩
  · exact awaitRead_frame (movStore_frame d)
  · exact awaitWrite_frame ..

theorem arithmetic_frame {f : Value → Value → Value} {a : Operand} {s t : State} (h : arithmetic f a s = .next t) :
    Frame s t := by
  obtain ⟨_, ⟨_, _, rfl⟩ | ⟨_, _, rfl⟩ | ⟨_, _, _, rfl⟩⟩ | ⟨_, _, _, _, rfl⟩ := arithmetic_cases h
  · exact ⟨rfl, rfl, rfl, rfl, rfl⟩
  · exact ⟨rfl, rfl, rfl, rfl, rfl⟩
  · exact ⟨rfl, rfl, rfl, rfl, rfl⟩
  · exact awaitRead_frame (accumulate_frame f)

/-- A jump that may be taken changes PC alone (R112, R113). -/
theorem State.jumpIf_eq (s : State) (c : Bool) (t : BitVec 24) :
    s.jumpIf c t = { s with pc := if c then t.setWidth 32 else s.pc + 4 } := by cases c <;> rfl

/-- JRO either jumps or faults (R119). -/
theorem execJro_cases (s : State) :
    (∃ p, jroTarget s.jroNegPolicy s.progLen s.acc = some p ∧ execJro s = .next { s with pc := p }) ∨
    (jroTarget s.jroNegPolicy s.progLen s.acc = none ∧
      execJro s = .next (s.raiseFault .jroRangeError (jroInfo s.acc))) := by
  unfold execJro
  split <;> simp_all

/-- No instruction changes the program, its length, the parameters or IR. -/
theorem exec_frame {i : Instr} {s t : State} (h : exec i s = .next t) : Frame s t := by
  cases i with
  | mov a d => exact execMov_frame h
  | add a => exact arithmetic_frame h
  | sub a => exact arithmetic_frame h
  | jro =>
    obtain ⟨_, _, e⟩ | ⟨_, e⟩ := execJro_cases s <;> rw [exec, e] at h <;> cases h <;> exact ⟨rfl, rfl, rfl, rfl, rfl⟩
  | jez | jnz | jgz | jlz =>
    simp only [exec, execJez, execJnz, execJgz, execJlz, State.jumpIf_eq] at h
    cases h
    exact ⟨rfl, rfl, rfl, rfl, rfl⟩
  | nop | swp | sav | neg | jmp => cases h; exact ⟨rfl, rfl, rfl, rfl, rfl⟩

/-- The two transactions a core can wait for (R24, R52). -/
theorem State.outstanding_cases {s : State} {q : Request} (h : s.outstanding = some q) :
    (s.phase = .waitSrc ∧ ∃ i a ch rec, decode s.ir = .decoded i ∧ i.operandA? = some a ∧ sourceOf s a = .port ch rec ∧
      q = .read ch) ∨
    (s.phase = .waitDst ∧ ∃ a d p, decode s.ir = .decoded (.mov a d) ∧ destOf s d = .port p ∧ q = .write p s.opa) := by
  unfold State.outstanding at h
  split at h
  · rename_i i hp hd
    split at h
    · rename_i a ha
      split at h <;> cases h
      exact .inl ⟨hp, i, a, _, _, hd, ha, ‹_›, rfl⟩
    · cases h
  · rename_i a d hp hd
    split at h <;> cases h
    exact .inr ⟨hp, a, d, _, hd, ‹_›, rfl⟩
  · cases h

/-- Everything a step that answers a next state can be (R91 to R95, R101, R104). -/
theorem step_cases {s t : State} (h : step s = .next t) :
    (s.runState ≠ .running ∧ t = s) ∨
    (s.runState = .running ∧ s.phase = .ready ∧
      ((s.fetch = .atEnd ∧ t = s.halt) ∨
       (s.fetch = .truncated ∧ t = s.raiseFault .fetchBoundsError (boundsInfo s.pc s.progLen)) ∨
       (∃ w b0, s.fetch = .record w ∧ decode w = .illegal b0 ∧
          t = { s with ir := w }.raiseFault .decodeError (decodeInfo b0)) ∨
       (∃ w i, s.fetch = .record w ∧ decode w = .decoded i ∧ exec i { s with ir := w } = .next t))) ∨
    (s.runState = .running ∧ s.phase ≠ .ready ∧
      ∃ i q, decode s.ir = .decoded i ∧ s.outstanding = some q ∧ exec i s = .next t) := by
  have hres : s.phase ≠ .ready → s.runState = .running →
      (match s.resume with
        | .settle t => Host.Outcome.next t
        | .execute i t => exec i t
        | .stuck => .fault .noAccess) = .next t →
      ∃ i q, decode s.ir = .decoded i ∧ s.outstanding = some q ∧ exec i s = .next t := by
    intro _ _ h
    unfold State.resume at h
    cases hd : decode s.ir <;> cases ho : s.outstanding <;> simp only [hd, ho, reduceCtorEq] at h
    exact ⟨_, _, rfl, rfl, h⟩
  unfold step State.action at h
  cases hr : s.runState with
  | halted => simp only [hr] at h; cases h; exact .inl ⟨by simp, rfl⟩
  | faulted => simp only [hr] at h; cases h; exact .inl ⟨by simp, rfl⟩
  | running =>
    cases hp : s.phase with
    | waitSrc =>
      simp only [hr, hp] at h
      exact .inr (.inr ⟨rfl, by simp, hres (by simp [hp]) hr h⟩)
    | waitDst =>
      simp only [hr, hp] at h
      exact .inr (.inr ⟨rfl, by simp, hres (by simp [hp]) hr h⟩)
    | ready =>
      simp only [hr, hp, State.begin] at h
      refine .inr (.inl ⟨rfl, rfl, ?_⟩)
      cases hf : s.fetch with
      | atEnd => simp only [hf] at h; cases h; exact .inl ⟨rfl, rfl⟩
      | truncated => simp only [hf] at h; cases h; exact .inr (.inl ⟨rfl, rfl⟩)
      | record w =>
        cases hd : decode w with
        | decoded i => simp only [hf, hd] at h; exact .inr (.inr (.inr ⟨w, i, rfl, hd, h⟩))
        | illegal b0 => simp only [hf, hd] at h; cases h; exact .inr (.inr (.inl ⟨w, b0, rfl, hd, rfl⟩))

end Sys2Proof.Machine
end

