-- ==== Sys2Proof/Tests/Slice0.lean ====
section
/-! SUPPORT. The model's own tests. Expected results come from spec/: the encodings of 30_encoding.md R74, the vectors of
95_test_vectors.md (named in each docstring), or the rule named. The last part shows, for each statement with hypotheses, operands and
a state that meet them. -/

open Sys2Proof Sys2Proof.Machine

namespace Sys2Proof.Tests

/-- The machine about to fetch record `w` at PC, from the reset state but for ACC and PC. -/
def start (w : Nat) (acc : Value := 0) (pc : BitVec 32 := 0) : State :=
  { State.reset with acc := acc, pc := pc }.withFetchWord 32 w

/-- The machine holding in phase `p` on the record `w` at offset 0, with OPA and the device's answers to come. -/
def holding (w : Nat) (p : Phase) (replies : List (Option Reply)) (opa : Value := 0) (last : Port := .down) : State :=
  { start w with ir := BitVec.ofNat 32 w, phase := p, replies := replies, opa := opa, last := last }

/-- The machine with a program loaded and reset. -/
def loaded (bytes : List Byte) : State := (State.reset.hostLoad bytes).hostReset

/-- The outcome is a next state of which `p` holds. -/
def gives (o : Host.Outcome State Fault Refusal) (p : State → Bool) : Bool :=
  match o with
  | .next t => p t
  | .fault _ => false
  | .refused _ => false

/-- A run that failed with this code and record, PC at the start. -/
def faulted (c : FaultCode) (info : BitVec 64) (t : State) : Bool :=
  t.runState == .faulted && t.faultCode == c && t.faultInfo == info && t.pc == 0 && t.phase == .ready

/-! ## Well-formedness (R72): the one check, and what passes it -/

theorem test_wf_refuses_big_literals :
    ¬ (Instr.add (.lit 1000)).WellFormed ∧ ¬ (Instr.sub (.lit (-1000))).WellFormed ∧
    ¬ (Instr.mov (.lit 0x8000) 1).WellFormed := by decide

theorem test_wf_accepts_values_and_any_selector_byte :
    (Instr.add (.lit 999)).WellFormed ∧ (Instr.mov (.lit (-999)) 0xFF).WellFormed ∧ (Instr.sub (.sel 0xFF)).WellFormed ∧
    Instr.jro.WellFormed := by decide

/-! ## Decoding: a word of every instruction, written out from R56, R65 and R74 -/

/-- V-DEC-4, and `00000000`. -/
theorem test_decode_nop : decode 0x00000000 = .decoded .nop ∧ decode 0xE0FFFFFF = .decoded .nop := by decide

/-- V-DEC-1, V-DEC-2, V-DEC-11, and the record of V-MOV-2. -/
theorem test_decode_mov :
    decode 0x11002A01 = .decoded (.mov (.lit 42) 1) ∧ decode 0x01000203 = .decoded (.mov (.sel 2) 3) ∧
    decode 0x01FF0101 = .decoded (.mov (.sel 1) 1) ∧ decode 0x11FC1803 = .decoded (.mov (.lit (-999)) 3) := by decide

theorem test_decode_swp : decode 0x02000000 = .decoded .swp := by decide

theorem test_decode_sav : decode 0x03000000 = .decoded .sav := by decide

/-- V-DEC-3, V-DEC-12 and the record of V-AR-3. -/
theorem test_decode_add :
    decode 0xF405DC00 = .decoded (.add (.lit 999)) ∧ decode 0x140001FF = .decoded (.add (.lit 1)) ∧
    decode 0x04000100 = .decoded (.add (.sel 1)) := by decide

/-- The records of V-AR-10 and V-AR-8. -/
theorem test_decode_sub :
    decode 0x15FC1900 = .decoded (.sub (.lit (-999))) ∧ decode 0x05000100 = .decoded (.sub (.sel 1)) := by decide

/-- V-SEL-6 is a NEG too. -/
theorem test_decode_neg : decode 0x06000000 = .decoded .neg ∧ decode 0x0600FFFF = .decoded .neg := by decide

/-- V-DEC-5, V-DEC-6. -/
theorem test_decode_jmp : decode 0x07010203 = .decoded (.jmp 66051) ∧ decode 0x17000008 = .decoded (.jmp 8) := by decide

/-- V-DEC-7. -/
theorem test_decode_jez : decode 0x0800FFFF = .decoded (.jez 65535) := by decide

theorem test_decode_jnz : decode 0x09000004 = .decoded (.jnz 4) := by decide

theorem test_decode_jgz : decode 0x0A000000 = .decoded (.jgz 0) := by decide

theorem test_decode_jlz : decode 0x0B00001C = .decoded (.jlz 28) := by decide

/-- V-DEC-10. -/
theorem test_decode_jro : decode 0x0C123456 = .decoded .jro := by decide

/-- V-DEC-8, V-DEC-9. -/
theorem test_decode_illegal :
    decode 0xED000000 = .illegal 0xED ∧ decode 0x0E000000 = .illegal 0x0E ∧ decode 0x0F000000 = .illegal 0x0F := by decide

/-- The listings of 95_test_vectors.md section 3. -/
theorem test_encode :
    encode (.mov (.lit 42) 1) = 0x11002A01 ∧ encode (.add (.lit (-500))) = 0x14FE0C00 ∧ encode (.sub (.lit 1)) = 0x15000100 ∧
    encode (.add (.sel 0)) = 0x04000000 ∧ encode (.jlz 28) = 0x0B00001C ∧ encode .jro = 0x0C000000 := by decide

/-- The host's entry for table rows. -/
theorem test_decodeTableWord :
    decodeTableWord 32 0x11002A01 = some (.mov (.lit 42) 1) ∧ decodeTableWord 32 0x0C000000 = some .jro ∧
    decodeTableWord 8 0x0B = some .nop ∧ decodeTableWord 32 0x0D000000 = none := by decide

/-! ## The value unit -/

/-- S3, S4, V-FB-2 to V-FB-7, V-TB-2, V-CMP-1. -/
theorem test_values :
    fromBytes 0x03 0xE8 = 999 ∧ fromBytes 0xFC 0x18 = -999 ∧ fromBytes 0x80 0x00 = -999 ∧ fromBytes 0x7F 0xFF = 999 ∧
    fromBytes 0xFE 0x0C = -500 ∧ toBytes (-500) = (0xFE, 0x0C) ∧ toBytes (-999) = (0xFC, 0x19) ∧
    negateValue (negateValue (-999)) = -999 ∧ compareValue (-1) 0 = .lt ∧ compareValue (-999) 999 = .lt := by decide

/-- R134's console patterns `c:00` by R49 and R78; at 0xFD and above R78 is followed where R134 says -999 (log entry 17). -/
theorem test_console_patterns :
    fromBytes 0x03 0 = 768 ∧ fromBytes 0x04 0 = 999 ∧ fromBytes 0x7F 0 = 999 ∧ fromBytes 0x80 0 = -999 ∧
    fromBytes 0xFC 0 = -999 ∧ fromBytes 0xFD 0 = -768 ∧ fromBytes 0xFF 0 = -256 := by decide

/-- V-ADD-1, V-ADD-3, V-SUB-1, V-CMP-2, through the unit's own interface (R90). -/
theorem test_value_unit :
    (valueUnit .add (-999) (-999)).result = -999 ∧ (valueUnit .sub 999 (-999)).result = 999 ∧
    addValue (addValue 999 1) (-1) = 998 ∧ addValue 999 (addValue 1 (-1)) = 999 ∧
    (valueUnit .pass (-1) 0).neg = true ∧ (valueUnit .pass 1 0).pos = true ∧ (valueUnit .pass 0 0).zero = true := by decide

/-! ## One step of each instruction -/

/-- V-NOP-1: a NOP whose b2 names UpPort. -/
theorem test_nop :
    gives (step { start 0x00000200 with replies := [some (.ok 7)] })
      (fun t => t.pc == 4 && t.replies == [some (.ok 7)] && t.log == [] && t.phase == .ready) = true := by decide

/-- V-MOV-1. -/
theorem test_mov_literal_to_acc : gives (step (start 0x1105DC01)) (fun t => t.acc == 999 && t.pc == 4) = true := by decide

/-- V-MOV-2: the write of 0xFC19 is issued. -/
theorem test_mov_literal_to_down :
    gives (step (start 0x11FC1803))
      (fun t => t.outstanding == some (.write .down 0xFC19) && t.phase == .waitDst && t.pc == 0) = true := by decide

/-- V-SWP-1. -/
theorem test_swp :
    gives (step { start 0x02000000 5 with bak := -7 }) (fun t => t.acc == -7 && t.bak == 5 && t.pc == 4) = true := by decide

/-- V-SAV-1. -/
theorem test_sav :
    gives (step { start 0x03000000 (-999) with bak := 3 }) (fun t => t.acc == -999 && t.bak == -999) = true := by decide

/-- V-AR-6. -/
theorem test_add_literal : gives (step (start 0x1405DC00 (-500))) (fun t => t.acc == 499 && t.pc == 4) = true := by decide

/-- V-AR-7, from the hold on. -/
theorem test_add_port :
    gives (step (holding 0x04000200 .waitSrc [some (.ok 0xFC18)]))
      (fun t => t.acc == -999 && t.last == .up && t.pc == 4 && t.phase == .ready) = true := by decide

/-- V-AR-11. -/
theorem test_sub_literal : gives (step (start 0x15FC1800)) (fun t => t.acc == 999) = true := by decide

/-- V-AR-8. -/
theorem test_sub_acc : gives (step (start 0x05000100 123)) (fun t => t.acc == 0 && t.last == .down) = true := by decide

/-- V-AR-14. -/
theorem test_neg :
    gives (step (start 0x06000000 (-999))) (fun t => t.acc == 999) = true ∧
    gives (step (start 0x06000000 42)) (fun t => t.acc == -42) = true := by decide

/-- V-J-8. -/
theorem test_jmp : gives (step (start 0x07FFFFFF)) (fun t => t.pc == 0xFFFFFF && t.runState == .running) = true := by decide

/-- V-J-2. -/
theorem test_jez :
    gives (step (start 0x08000100 0 8)) (fun t => t.pc == 256) = true ∧
    gives (step (start 0x08000100 (-1) 8)) (fun t => t.pc == 12) = true := by decide

/-- V-J-3. -/
theorem test_jnz :
    gives (step (start 0x09000004 0 12)) (fun t => t.pc == 16) = true ∧
    gives (step (start 0x09000004 (-999) 12)) (fun t => t.pc == 4) = true := by decide

/-- V-J-4. -/
theorem test_jgz :
    gives (step (start 0x0A000000 1 20)) (fun t => t.pc == 0) = true ∧
    gives (step (start 0x0A000000 (-1) 20)) (fun t => t.pc == 24) = true := by decide

/-- V-J-5. -/
theorem test_jlz :
    gives (step (start 0x0B00001C (-1) 20)) (fun t => t.pc == 28) = true ∧
    gives (step (start 0x0B00001C 1 20)) (fun t => t.pc == 24) = true := by decide

/-- V-J-6. -/
theorem test_jro_forward : gives (step (start 0x0C000000 999 4)) (fun t => t.pc == 999) = true := by decide

/-- V-J-7, under each policy. -/
theorem test_jro_negative :
    gives (step (start 0x0C000000 (-8) 12))
      (fun t => t.pc == 12 && t.faultCode == .jroRangeError && t.faultInfo == 0xFFF8) = true ∧
    gives (step { start 0x0C000000 (-8) 12 with jroNegPolicy := .clampZero }) (fun t => t.pc == 0) = true ∧
    gives (step { start 0x0C000000 (-8) 12 with jroNegPolicy := .wrapModLen }) (fun t => t.pc == 8) = true ∧
    gives (step { start 0x0C000000 (-8) 12 with jroNegPolicy := .castUnsigned }) (fun t => t.pc == 0xFFFFFFF8) = true := by
  decide

/-! ## The resolver and the ends of a run -/

/-- V-RES-1 to V-RES-3: `MOV LAST, ACC` with LAST = Down under each mode; the channel asked and the port recorded. -/
theorem test_down_reads :
    (holding 0x01000001 .waitSrc []).outstanding = some (.read .up) ∧
    gives (step (holding 0x01000001 .waitSrc [some (.ok 7)])) (fun t => t.acc == 7 && t.last == .down) = true ∧
    gives (step { holding 0x01000001 .waitSrc [some (.ok 7)] with downReadMode := .aliasUpRecordUp })
      (fun t => t.acc == 7 && t.last == .up) = true ∧
    { holding 0x01000001 .waitSrc [] with downReadMode := .readDown }.outstanding = some (.read .down) := by decide

/-- V-RES-4: `MOV UP, LAST` with LAST = Down writes up, since the read has just recorded Up. -/
theorem test_last_is_read_late :
    gives (step (holding 0x01000200 .waitSrc [some (.ok 0x10)]))
      (fun t => t.outstanding == some (.write .up 0x10) && t.last == .up && t.pc == 0) = true := by decide

/-- V-RES-6 and the last step of V-RES-7, with error kind 9. -/
theorem test_port_errors :
    gives (step (holding 0x01000203 .waitSrc [some (.err 9)]))
      (fun t => faulted .portError 0x900000000 t && t.last == .down) = true ∧
    gives (step (holding 0x01000203 .waitDst [some (.err 9)] 3 .up))
      (fun t => faulted .portError 0x900000003 t && t.last == .up) = true := by decide

/-- V-SEL-1 to V-SEL-4. -/
theorem test_selector_errors :
    gives (step (start 0x01000401)) (faulted .selectorError 0x004) = true ∧
    gives (step (start 0x11000507)) (faulted .selectorError 0x107) = true ∧
    gives (step (start 0x01000907)) (faulted .selectorError 0x009) = true ∧
    gives (step (start 0x04000500)) (faulted .selectorError 0x005) = true := by decide

/-- V-F-1, V-F-2 and S10. -/
theorem test_ends :
    gives (step State.reset) (fun t => t.runState == .halted && t.pc == 0) = true ∧
    gives (step (loaded [0, 0, 0])) (faulted .fetchBoundsError 0x0000000300000000) = true ∧
    gives (step (loaded [0x0D, 0, 0, 0])) (faulted .decodeError 0x0D) = true := by decide

/-- V-F-4, its second step: the misaligned record at 2 is a NOP. -/
theorem test_misaligned_fetch :
    gives (step { loaded [7, 0, 0, 2, 0, 0, 0, 0] with pc := 2 }) (fun t => t.pc == 6 && t.runState == .running) = true := by
  decide

/-- Memory: a write keeps the canonical form, and writing the unlisted byte removes the cell (R31; log entry 11). -/
theorem test_memory :
    Memory.write [(2, 5)] 1 7 = [(1, 7), (2, 5)] ∧ Memory.write [(1, 7), (2, 5)] 1 0 = [(2, 5)] ∧
    Memory.wf [(2, 5), (1, 7)] = false ∧ Memory.wf [(1, 0)] = false := by decide

/-! ## Witnesses: the hypotheses of the statements can be met -/

/-- DecodeEncodeRoundTrip, DecodedInstructionsAreWellFormed. -/
theorem test_witness_decoder :
    (Instr.mov (.lit (-999)) 0xFF).WellFormed ∧ decode 0x15FC1800 = .decoded (.sub (.lit (-999))) := by decide

/-- ReservedBitsAreIgnored: two bytes that agree below bit 5. -/
theorem test_witness_reserved_bits :
    (0xF4 : Byte).toNat % 32 = (0x14 : Byte).toNat % 32 ∧
    decodeBytes 0xF4 0x05 0xDC 0 = .decoded (.add (.lit 999)) := by decide

/-- UnreadFieldsAreIgnored: two bytes for each of the four clauses, an opcode at each end of the clause's list, L clear in the
last clause. -/
theorem test_witness_unread_fields :
    ((0xF0 : Byte).toNat % 16 = (0x00 : Byte).toNat % 16 ∧ (0xF0 : Byte).toNat % 16 ∈ [0, 2, 3, 6, 12]) ∧
    ((0x1C : Byte).toNat % 16 = (0x0C : Byte).toNat % 16 ∧ (0x1C : Byte).toNat % 16 ∈ [0, 2, 3, 6, 12]) ∧
    ((0x17 : Byte).toNat % 16 = (0x07 : Byte).toNat % 16 ∧ (0x17 : Byte).toNat % 16 ∈ [7, 8, 9, 10, 11]) ∧
    ((0x1B : Byte).toNat % 16 = (0x0B : Byte).toNat % 16 ∧ (0x1B : Byte).toNat % 16 ∈ [7, 8, 9, 10, 11]) ∧
    ((0x14 : Byte).toNat % 16 = (0x04 : Byte).toNat % 16 ∧ (0x14 : Byte).toNat % 16 ∈ [4, 5]) ∧
    ((0xE1 : Byte).toNat % 16 ∈ [1, 4, 5] ∧ (0xE1 : Byte).toNat / 16 % 2 = 0) := by decide

/-- ClampSaturates: each clause at its boundary. -/
theorem test_witness_clamp :
    (1000 : Int) > 999 ∧ (-1000 : Int) < -999 ∧ (-999 : Int) ≤ 999 ∧ clamp 1000 = 999 ∧ clamp (-1000) = -999 ∧
    clamp (-999) = -999 ∧ clamp 999 = 999 := by decide

/-- ValueUnitLaws: two integers in order, on either side of the clamp. -/
theorem test_witness_clamp_order : (-1000 : Int) ≤ 1000 ∧ clamp (-1000) ≤ clamp 1000 := by decide

/-- ToBytesRoundTrips, AddAndSubSaturate, NegateIsExactAndInvolutive, ValueUnitLaws, the last clause of NegNegatesAcc. -/
theorem test_witness_values :
    Value.InRange (-999) ∧ Value.InRange 999 ∧ Value.InRange 0 ∧ BitVec.toInt (-999 : Value) ≤ BitVec.toInt (999 : Value) := by
  decide

/-- The decoding clauses of NopAdvancesPcOnly, SwpExchangesAccAndBak, SavCopiesAccToBak, NegNegatesAcc, JmpSetsPcToTarget and
ConditionalJumpsTestAcc. -/
theorem test_witness_opcodes :
    (0xE0 : Byte).toNat % 16 = 0 ∧ (0x12 : Byte).toNat % 16 = 2 ∧ (0x03 : Byte).toNat % 16 = 3 ∧ (0xF6 : Byte).toNat % 16 = 6 ∧
    (0x17 : Byte).toNat % 16 = 7 ∧ (0x18 : Byte).toNat % 16 = 8 ∧ (0x09 : Byte).toNat % 16 = 9 ∧
    (0x0A : Byte).toNat % 16 = 10 ∧ (0xFB : Byte).toNat % 16 = 11 := by decide

/-- JroJumpsToAcc at 0 and 999. -/
theorem test_witness_jro_forward :
    0 ≤ (start 0x0C000000 0).acc.toInt ∧ 0 ≤ (start 0x0C000000 999).acc.toInt := by decide

/-- JroNegativeFollowsPolicy, one state for each policy; PROG_LEN is 4 in the third. -/
theorem test_witness_jro_negative :
    ((start 0x0C000000 (-1)).acc.toInt < 0 ∧ (start 0x0C000000 (-1)).jroNegPolicy = .fault) ∧
    (let s : State := { start 0x0C000000 (-999) with jroNegPolicy := .clampZero };
      s.acc.toInt < 0 ∧ s.jroNegPolicy = .clampZero) ∧
    (let s : State := { start 0x0C000000 (-1) with jroNegPolicy := .wrapModLen };
      s.acc.toInt < 0 ∧ s.jroNegPolicy = .wrapModLen ∧ 0 < s.progLen.toNat) ∧
    (let s : State := { start 0x0C000000 (-999) with jroNegPolicy := .castUnsigned };
      s.acc.toInt < 0 ∧ s.jroNegPolicy = .castUnsigned) := by decide

/-- SelectorBytesReach: a state of each mode, both values of LAST, and the first illegal byte. -/
theorem test_witness_selectors :
    State.reset.downReadMode = .aliasUpRecordDown ∧
    { State.reset with downReadMode := .aliasUpRecordUp }.downReadMode = .aliasUpRecordUp ∧
    { State.reset with downReadMode := .readDown }.downReadMode = .readDown ∧
    { State.reset with last := .up }.last = .up ∧ State.reset.last ≠ .up ∧ 4 ≤ (4 : Byte).toNat ∧ 4 ≤ (255 : Byte).toNat := by
  decide

/-- AddSubOfValueComplete, MovOfValueToAccCompletes, MovOfValueToPortIssuesWrite: a literal and ACC, to each port. -/
theorem test_witness_values_at_once :
    (start 0x11000502).phase = .ready ∧ sourceOf (start 0x11000502) (.lit 5) = .value 5 ∧
    sourceOf (start 0x01000103 7) (.sel 1) = .value 7 ∧ destOf (start 0x11000502) 2 = .port .up ∧
    destOf (start 0x01000103) 3 = .port .down ∧ destOf (start 0x01000100) 0 = .port .down ∧
    (let s : State := { start 0x11000502 with ir := 0x11000502 };
      decode s.ir = .decoded (.mov (.lit 5) 2)) := by decide

/-- PortSourceIssuesRead: with the destination at both ends of the legal bytes, and IR naming each instruction. -/
theorem test_witness_port_source :
    (start 0x01000203).phase = .ready ∧ sourceOf (start 0x01000203) (.sel 2) = .port .up .up ∧ LegalSelector 0 ∧
    LegalSelector 3 ∧ decode 0x01000203 = .decoded (.mov (.sel 2) 3) ∧ decode 0x04000200 = .decoded (.add (.sel 2)) ∧
    decode 0x05000200 = .decoded (.sub (.sel 2)) := by decide

/-- AnsweredReadCompletesAddSub, AnsweredReadCompletesMovToAcc, AnsweredReadGoesOnToWrite: the read has its answer. -/
theorem test_witness_answered_read :
    let s := holding 0x01000203 .waitSrc [some (.ok 0x7FFF), none]
    s.phase = .waitSrc ∧ sourceOf s (.sel 2) = .port .up .up ∧ s.replies = [some (.ok 0x7FFF), none] ∧
    destOf { s with last := .up } 3 = .port .down ∧ destOf { s with last := .up } 0 = .port .up ∧
    decode s.ir = .decoded (.mov (.sel 2) 3) := by decide

/-- ConsoleAnswersEnterClamped: a byte at each end of each range of first bytes. -/
theorem test_witness_console :
    ∀ c ∈ ([0x00, 0x03, 0x04, 0x7F, 0x80, 0xFC, 0xFD, 0xFF] : List Byte),
      let s := holding 0x01000201 .waitSrc [some (consoleAnswer c)];
      s.phase = .waitSrc ∧ sourceOf s (.sel 2) = .port .up .up ∧ s.replies = [some (consoleAnswer c)] := by decide

/-- AcceptedWriteCompletesMov. -/
theorem test_witness_accepted_write :
    let s := holding 0x11000503 .waitDst [some (.ok 0)] 5
    s.phase = .waitDst ∧ destOf s 3 = .port .down ∧ s.replies = [some (.ok 0)] := by decide

/-- PortErrorsFault: a refused read and a refused write. -/
theorem test_witness_port_errors :
    (let s := holding 0x04000200 .waitSrc [some (.err 0xFFFFFFFF)];
      s.replies = [some (.err 0xFFFFFFFF)] ∧ s.phase = .waitSrc ∧ sourceOf s (.sel 2) = .port .up .up) ∧
    (let s := holding 0x01000203 .waitDst [some (.err 0)] 3 .up;
      s.replies = [some (.err 0)] ∧ s.phase = .waitDst ∧ destOf s 3 = .port .down) := by decide

/-- IllegalSelectorsFault: the first and last illegal byte in each field, with a legal selector or a literal as source. -/
theorem test_witness_illegal_selectors :
    (start 0x01000401).phase = .ready ∧ 4 ≤ (4 : Byte).toNat ∧ 4 ≤ (255 : Byte).toNat ∧
    (∀ x : Byte, Operand.sel 3 = .sel x → x.toNat < 4) ∧ (∀ x : Byte, Operand.lit 5 = .sel x → x.toNat < 4) := by
  refine ⟨by decide, by decide, by decide, ?_, ?_⟩
  · intro x h
    cases h
    decide
  · intro x h
    cases h

/-- OtherInstructionsTouchNoPort, AccAndBakWriters, for a step that goes on and for the fault of JRO. -/
theorem test_witness_other_instructions :
    (Instr.nop.operandA? = none ∧ ∃ t, exec .nop (start 0) = .next t) ∧
    (Instr.jro.operandA? = none ∧ ∃ t, exec .jro (start 0 (-1)) = .next t ∧ t.runState = .faulted) ∧
    (Instr.mov (.lit 5) 3 ≠ .swp ∧ ∃ t, exec (.mov (.lit 5) 3) (start 0) = .next t) ∧ isJump (.jez 0) = true :=
  ⟨⟨rfl, _, rfl⟩, ⟨rfl, _, rfl, rfl⟩, ⟨by decide, _, rfl⟩, rfl⟩

/-- OperandInstructionsFrame: a form that stores nothing, one that holds, one that faults. -/
theorem test_witness_operand_frame :
    ((Instr.add (.lit 5)).operandA? ≠ none ∧ ∃ t, exec (.add (.lit 5)) (start 0) = .next t) ∧
    (∃ t, exec (.mov (.sel 2) 1) (start 0) = .next t ∧ t.phase ≠ .ready) ∧
    (∃ t, exec (.sub (.sel 4)) (start 0) = .next t ∧ t.runState = .faulted) :=
  ⟨⟨by decide, _, rfl⟩, ⟨_, rfl, by decide⟩, ⟨_, rfl, rfl⟩⟩

/-- StepRunsTheRecordAtPc, and IllegalOpcodeFaults at opcodes 13 and 15. -/
theorem test_witness_step_runs :
    (let s := start 0x11002A01;
      s.runState = .running ∧ s.phase = .ready ∧ s.memRead s.pc.toNat 4 = some [0x11, 0, 0x2A, 1] ∧
      decodeBytes 0x11 0 0x2A 1 = .decoded (.mov (.lit 42) 1)) ∧
    ((start 0xED000000).memRead 0 4 = some [0xED, 0, 0, 0] ∧ 13 ≤ (0xED : Byte).toNat % 16) ∧
    ((start 0x0F000001).memRead 0 4 = some [0x0F, 0, 0, 1] ∧ 13 ≤ (0x0F : Byte).toNat % 16) := by decide

/-- StepResumesTheHoldingInstruction, and UnansweredHoldChangesNothing in both of its clauses. -/
theorem test_witness_hold :
    (let s := holding 0x04000200 .waitSrc [none];
      s.Inv ∧ s.Holding ∧ decode s.ir = .decoded (.add (.sel 2)) ∧ s.outstanding = some (.read .up) ∧ s.replies = [none]) ∧
    (let s := holding 0x11000503 .waitDst [] 5;
      s.Inv ∧ s.Holding ∧ s.outstanding = some (.write .down 5) ∧ s.replies = []) := by decide

/-- StepHaltsAtTheEnd at the end itself, TruncatedRecordFaults one and three bytes before it. -/
theorem test_witness_end_of_program :
    (let s : State := { start 0 with pc := 4 };
      s.runState = .running ∧ s.phase = .ready ∧ s.progLen.toNat ≤ s.pc.toNat) ∧
    (let s : State := { start 0 with pc := 3 };
      s.runState = .running ∧ s.phase = .ready ∧ s.pc.toNat < s.progLen.toNat ∧ s.progLen.toNat < s.pc.toNat + 4) ∧
    (let s : State := { start 0 with pc := 1 };
      s.pc.toNat < s.progLen.toNat ∧ s.progLen.toNat < s.pc.toNat + 4) := by decide

/-- EndedRunsStay: both ends. -/
theorem test_witness_ended :
    { State.reset with runState := .halted }.runState ≠ .running ∧
    { State.reset with runState := .faulted, faultCode := .decodeError }.runState ≠ .running := by decide

/-- HostResetStartsAFreshRun, HostLoadPlacesTheProgram. -/
theorem test_witness_host :
    (holding 0x01000203 .waitSrc []).ProgramCanonical ∧ [0x11, 0x00, 0x2A, (0x01 : Byte)].length < 2 ^ 32 := by decide

/-- HostReadsStatusAndRegisters: each number of FAULT_CODE and RUN_STATE is read somewhere. -/
theorem test_witness_status :
    { State.reset with runState := .faulted, faultCode := .jroRangeError, faultInfo := 0xFFF8 }.status = ⟨2, 5, 0xFFF8⟩ ∧
    { State.reset with runState := .halted }.status = ⟨1, 0, 0⟩ ∧
    { State.reset with runState := .halted, acc := 7 }.observe = some ⟨⟨1, 0, 0⟩, 0, 7, 0, 1⟩ ∧
    State.reset.observe = none := by decide

/-- StepKeepsProgramMemory, EveryStepKeepsTheInvariant, EveryStepAnswersANextState, ValuesStayInRange: a step from READY and one
from a hold. -/
theorem test_witness_invariant :
    ((start 0x11FC1803 5).Inv ∧ ∃ t, step (start 0x11FC1803 5) = .next t) ∧
    ((holding 0x01000203 .waitSrc [some (.ok 3)]).Inv ∧
      ∃ t, step (holding 0x01000203 .waitSrc [some (.ok 3)]) = .next t ∧ t.phase = .waitDst) :=
  ⟨⟨by decide, _, rfl⟩, ⟨by decide, _, rfl, by decide⟩⟩

/-- PcStaysBounded: at the bound itself, and with JRO under another policy. -/
theorem test_witness_pc_bounded :
    (let s : State := { start 0 with pc := 0xFFFFFF };
      s.Inv ∧ s.PcBounded ∧ s.jroNegPolicy ≠ .castUnsigned ∧ ∃ t, step s = .next t) ∧
    (let s : State := { start 0x0C000000 (-1) with jroNegPolicy := .wrapModLen };
      s.Inv ∧ s.PcBounded ∧ s.jroNegPolicy ≠ .castUnsigned ∧ ∃ t, step s = .next t) :=
  ⟨⟨by decide, by decide, by decide, _, rfl⟩, ⟨by decide, by decide, by decide, _, rfl⟩⟩

/-- SequentialPcAdvancesByFour: one that completes, one that holds. -/
theorem test_witness_sequential :
    (let s := start 0x02000000;
      s.Inv ∧ s.runState = .running ∧ s.fetch = .record 0x02000000 ∧ decode 0x02000000 = .decoded .swp ∧
      isJump .swp = false ∧ ∃ t, step s = .next t ∧ t.pc = 4) ∧
    (let s := start 0x04000200;
      s.Inv ∧ s.fetch = .record 0x04000200 ∧ decode 0x04000200 = .decoded (.add (.sel 2)) ∧
      isJump (.add (.sel 2)) = false ∧ ∃ t, step s = .next t ∧ t.pc = 0) :=
  ⟨⟨by decide, by decide, by decide, by decide, rfl, _, rfl, by decide⟩,
    ⟨by decide, by decide, by decide, rfl, _, rfl, by decide⟩⟩

/-- TransactionsCompleteInOrder, OnlySuccessfulAccessesChangeLast: a read and a write that are answered, and LAST changes. -/
theorem test_witness_transactions :
    (∃ t, step (holding 0x04000200 .waitSrc [some (.ok 3)]) = .next t ∧ t.last = .up ∧
      t.log = [⟨.read .up, .ok 3⟩]) ∧
    (∃ t, step (holding 0x11000502 .waitDst [some (.ok 0)] 5) = .next t ∧ t.last = .up ∧
      t.log = [⟨.write .up 5, .ok 0⟩]) ∧
    (∃ t, step { holding 0x01000301 .waitSrc [some (.ok 3)] with downReadMode := .readDown } = .next t ∧
      t.log = [⟨.read .down, .ok 3⟩]) :=
  ⟨⟨_, rfl, by decide, by decide⟩, ⟨_, rfl, by decide, by decide⟩, ⟨_, rfl, by decide⟩⟩

/-- EveryFaultHasItsCause: the selector fault from a source and from a destination byte, both out of range in the first. -/
theorem test_witness_selector_fault :
    (∃ t, step (start 0x01000907) = .next t ∧ t.faultInfo = selectorInfo .src 9) ∧ ¬ LegalSelector 9 ∧
    (∃ t, step (start 0x01000304) = .next t ∧ t.faultInfo = selectorInfo .dst 4) ∧ LegalSelector 3 ∧ ¬ LegalSelector 4 ∧
    (start 0x01000907).Inv ∧ (start 0x01000304).Inv :=
  ⟨⟨_, rfl, by decide⟩, by decide, ⟨_, rfl, by decide⟩, by decide, by decide, by decide, by decide⟩

/-- FaultsArePrecise, EveryFaultHasItsCause: each of the five faults from a state that meets the invariant. -/
theorem test_witness_faults :
    (∃ t, step (start 0x0D000000) = .next t ∧ t.faultCode = .decodeError) ∧
    (∃ t, step (holding 0x04000200 .waitSrc [some (.err 1)]) = .next t ∧ t.faultCode = .portError) ∧
    (∃ t, step (start 0x11000504) = .next t ∧ t.faultCode = .selectorError) ∧
    (∃ t, step { start 0 with pc := 1 } = .next t ∧ t.faultCode = .fetchBoundsError) ∧
    (∃ t, step (start 0x0C000000 (-1)) = .next t ∧ t.faultCode = .jroRangeError) ∧
    (start 0x0D000000).Inv ∧ (holding 0x04000200 .waitSrc [some (.err 1)]).Inv ∧ (start 0x11000504).Inv ∧
    { start 0 with pc := 1 }.Inv ∧ (start 0x0C000000 (-1)).Inv :=
  ⟨⟨_, rfl, by decide⟩, ⟨_, rfl, by decide⟩, ⟨_, rfl, by decide⟩, ⟨_, rfl, by decide⟩, ⟨_, rfl, by decide⟩,
    by decide, by decide, by decide, by decide, by decide⟩

/-- RunsHaltOnlyAtTheEnd in both directions, HiddenLatchesAreNeverReadEarly for a step into each phase. -/
theorem test_witness_ready_steps :
    (State.reset.runState = .running ∧ State.reset.phase = .ready ∧ ∃ t, step State.reset = .next t ∧ t.runState = .halted) ∧
    (∃ t, step (start 0x04000200) = .next t ∧ t.phase = .waitSrc ∧ t.runState = .running) ∧
    (∃ t, step (start 0x11000503) = .next t ∧ t.phase = .waitDst) :=
  ⟨⟨rfl, rfl, _, rfl, by decide⟩, ⟨_, rfl, by decide, by decide⟩, ⟨_, rfl, by decide⟩⟩

end Sys2Proof.Tests
end

section
/-! PROOF. What MOV, ADD and SUB change and leave unchanged, in every form and phase (41_fetch_execute.md R98, R100, R101;
42_data_movement.md R106; 43_arithmetic.md R109, R110). -/

namespace Sys2Proof.Machine

/-- A state with the same program has the same byte at every offset (R31, R32). -/
theorem Frame.byteAt_eq {s t : State} (h : Frame s t) (a : Nat) : t.byteAt a = s.byteAt a := by
  unfold State.byteAt
  rw [h.prog, h.progLen]

/-- How an instruction with operand A leaves the core: BAK as it was, and the core faulted or waiting with PC and ACC as they were
(R100, R124), or ready for the next record with STATUS as it was (R98, R101). -/
def OperandExit (s t : State) : Prop :=
  t.bak = s.bak ∧
    ((t.runState = .faulted ∧ t.phase = .ready ∧ t.pc = s.pc ∧ t.acc = s.acc) ∨
     (t.runState = s.runState ∧ t.faultCode = s.faultCode ∧ t.faultInfo = s.faultInfo ∧
       ((t.phase ≠ .ready ∧ t.pc = s.pc ∧ t.acc = s.acc) ∨ (t.phase = .ready ∧ t.pc = s.pc + 4))))

theorem operandExit_raiseFault (s : State) (c : FaultCode) (info : BitVec 64) : OperandExit s (s.raiseFault c info) :=
  ⟨rfl, .inl ⟨rfl, rfl, rfl, rfl⟩⟩

theorem operandExit_hold (s : State) {p : Phase} (hp : p ≠ .ready) : OperandExit s (s.hold p) :=
  ⟨rfl, .inr ⟨rfl, rfl, rfl, .inl ⟨hp, rfl, rfl⟩⟩⟩

theorem operandExit_complete (s : State) (opa acc : Value) : OperandExit s { s with opa := opa, acc := acc }.complete :=
  ⟨rfl, .inr ⟨rfl, rfl, rfl, .inr ⟨rfl, rfl⟩⟩⟩

/-- A step without an answer is still a wait. -/
theorem operandExit_unanswered {s : State} (hp : s.phase ≠ .ready) (rest : List (Option Reply)) :
    OperandExit s { s with replies := rest } :=
  ⟨rfl, .inr ⟨rfl, rfl, rfl, .inl ⟨hp, rfl, rfl⟩⟩⟩

/-- The answer to a read changes nothing that an exit speaks of, so the wait exits as what resumes it does. -/
theorem awaitRead_operandExit {s : State} {ch rec : Port} {k : State → Value → State} (hp : s.phase ≠ .ready)
    (hk : ∀ t v, OperandExit t (k t v)) : OperandExit s (awaitRead s ch rec k) := by
  obtain ⟨_, e⟩ | ⟨rest, _, e⟩ | ⟨_, rest, _, e⟩ | ⟨u, rest, _, e⟩ := awaitRead_cases s ch rec k <;> rw [e]
  · exact operandExit_unanswered hp s.replies
  · exact operandExit_unanswered hp rest
  · exact operandExit_raiseFault (s.answered ..) _ _
  · exact hk { s.answered (.read ch) (.ok u) rest with last := rec } _

theorem awaitWrite_operandExit {s : State} (hp : s.phase ≠ .ready) (p : Port) : OperandExit s (awaitWrite s p) := by
  obtain ⟨_, e⟩ | ⟨rest, _, e⟩ | ⟨_, rest, _, e⟩ | ⟨u, rest, _, e⟩ := awaitWrite_cases s p <;> rw [e]
  · exact operandExit_unanswered hp s.replies
  · exact operandExit_unanswered hp rest
  · exact operandExit_raiseFault (s.answered ..) _ _
  · exact operandExit_complete { s.answered (.write p s.opa) (.ok u) rest with last := p } s.opa s.acc

theorem movStore_operandExit (d : Byte) (s : State) (v : Value) : OperandExit s (movStore d s v) := by
  obtain ⟨_, e⟩ | ⟨_, _, e⟩ | ⟨_, _, e⟩ := movStore_cases d s v <;> rw [e]
  · exact operandExit_complete s v v
  · exact operandExit_hold { s with opa := v } (by decide)
  · exact operandExit_raiseFault ..

theorem execMov_operandExit {a : Operand} {d : Byte} {s t : State} (h : execMov a d s = .next t) : OperandExit s t := by
  obtain ⟨_, ⟨_, _, rfl⟩ | ⟨_, _, rfl⟩ | ⟨_, _, rfl⟩ | ⟨_, _, _, _, rfl⟩⟩ | ⟨hp, _, _, _, rfl⟩ | ⟨hp, _, _, rfl⟩ :=
    execMov_cases h
  · exact operandExit_raiseFault ..
  · exact operandExit_raiseFault ..
  · exact movStore_operandExit ..
  · exact operandExit_hold s (by decide)
  · exact awaitRead_operandExit (by simp [hp]) (movStore_operandExit d)
  · exact awaitWrite_operandExit (by simp [hp]) _

theorem arithmetic_operandExit {f : Value → Value → Value} {a : Operand} {s t : State} (h : arithmetic f a s = .next t) :
    OperandExit s t := by
  have hacc (s : State) (v : Value) : OperandExit s (accumulate f s v) := operandExit_complete s s.opa (f s.acc v)
  obtain ⟨_, ⟨_, _, rfl⟩ | ⟨v, _, rfl⟩ | ⟨_, _, _, rfl⟩⟩ | ⟨hp, _, _, _, rfl⟩ := arithmetic_cases h
  · exact operandExit_raiseFault ..
  · exact hacc s v
  · exact operandExit_hold s (by decide)
  · exact awaitRead_operandExit (by simp [hp]) hacc

theorem awaitRead_opa {s : State} {ch rec : Port} {k : State → Value → State} (hk : ∀ t v, (k t v).opa = t.opa) :
    (awaitRead s ch rec k).opa = s.opa := by
  obtain ⟨_, e⟩ | ⟨_, _, e⟩ | ⟨_, _, _, e⟩ | ⟨_, _, _, e⟩ := awaitRead_cases s ch rec k <;> simp [e, hk]

/-- ADD and SUB do not write OPA: the answer goes to ACC directly (R109, R110). -/
theorem arithmetic_opa {f : Value → Value → Value} {a : Operand} {s t : State} (h : arithmetic f a s = .next t) :
    t.opa = s.opa := by
  obtain ⟨_, ⟨_, _, rfl⟩ | ⟨_, _, rfl⟩ | ⟨_, _, _, rfl⟩⟩ | ⟨_, _, _, _, rfl⟩ := arithmetic_cases h
  · rfl
  · rfl
  · rfl
  · exact awaitRead_opa fun _ _ => rfl

/-- Every step of MOV, ADD and SUB exits as R98, R100, R101 and R124 say, and only MOV writes OPA (R106). -/
theorem exec_operandExit {i : Instr} {s t : State} (hop : i.operandA? ≠ none) (h : exec i s = .next t) :
    OperandExit s t ∧ ((∃ a d, i = .mov a d) ∨ t.opa = s.opa) := by
  cases i with
  | mov a d => exact ⟨execMov_operandExit h, .inl ⟨a, d, rfl⟩⟩
  | add a => exact ⟨arithmetic_operandExit h, .inr (arithmetic_opa h)⟩
  | sub a => exact ⟨arithmetic_operandExit h, .inr (arithmetic_opa h)⟩
  | nop | swp | sav | neg | jmp | jez | jnz | jgz | jlz | jro => exact absurd rfl hop

/-- Settles O35: the frame every instruction keeps, with the exit of the three that have an operand A. -/
theorem operandInstructionsFrame : Obligations.OperandInstructionsFrame := by
  intro i s t hop h
  have hf := exec_frame h
  obtain ⟨⟨hbak, hexit⟩, hopa⟩ := exec_operandExit hop h
  exact ⟨hf.byteAt_eq, hf.prog, hf.progLen, hf.downReadMode, hf.jroNegPolicy, hbak, hf.ir, hopa, hexit⟩

end Sys2Proof.Machine
end

section
/-! PROOF. What a step can come to, written out once: how an instruction takes the Value of its operand A (42_data_movement.md R106,
43_arithmetic.md R109, R110), what an instruction's own effect is (R96 to R101, R112, R119), and what a step is around it
(41_fetch_execute.md R91 to R95, R101, R104). -/

namespace Sys2Proof.Machine

/-- The state once operand A is known to be `v`: a MOV puts it into ACC, issues the write to a port or faults (R45 to R47, R106);
ADD and SUB accumulate it (R109, R110). -/
inductive Takes (i : Instr) (s : State) (v : Value) : State → Prop
  | toAcc {a : Operand} {d : Byte} (hi : i = .mov a d) (hd : destOf s d = .acc) :
      Takes i s v { s with opa := v, acc := v }.complete
  | toPort {a : Operand} {d : Byte} {p : Port} (hi : i = .mov a d) (hd : destOf s d = .port p) :
      Takes i s v ({ s with opa := v }.hold .waitDst)
  | toNothing {a : Operand} {d b : Byte} (hi : i = .mov a d) (hd : destOf s d = .illegal b) :
      Takes i s v (s.raiseSelector .dst b)
  | accumulates {a : Operand} {f : Value → Value → Value} (hi : i = .add a ∧ f = addValue ∨ i = .sub a ∧ f = subValue) :
      Takes i s v (accumulate f s v)

/-- Everything an instruction's own step can come to. -/
inductive Effect (i : Instr) (s : State) : State → Prop
  /-- An instruction without operand A moves ACC and BAK and sets PC (R105, R107, R108, R111 to R119). -/
  | moves {acc bak : Value} {pc : BitVec 32} (hop : i.operandA? = none)
      (hacc : acc = s.acc ∨ acc = s.bak ∨ acc = negateValue s.acc) (hbak : bak = s.bak ∨ bak = s.acc)
      (hpc : pc = s.pc + 4 ∨ (∃ target : BitVec 24, pc = target.setWidth 32) ∨
        jroTarget s.jroNegPolicy s.progLen s.acc = some pc) :
      Effect i s { s with acc := acc, bak := bak, pc := pc }
  /-- JRO has no target (R119). -/
  | outOfRange (hi : i = .jro) (hn : jroTarget s.jroNegPolicy s.progLen s.acc = none) :
      Effect i s (s.raiseFault .jroRangeError (jroInfo s.acc))
  /-- A selector byte names nothing (R96). -/
  | badSelector (f : SelField) (b : Byte) (hp : s.phase = .ready) : Effect i s (s.raiseSelector f b)
  /-- The read of operand A is issued (R100). -/
  | issuesRead {a : Operand} {ch rec : Port} (hp : s.phase = .ready) (hl : selectorsLegal i = true)
      (ha : i.operandA? = some a) (hs : sourceOf s a = .port ch rec) : Effect i s (s.hold .waitSrc)
  /-- Operand A is here at once (R99). -/
  | takes {a : Operand} {v : Value} {t : State} (hp : s.phase = .ready) (hl : selectorsLegal i = true)
      (ha : i.operandA? = some a) (hs : sourceOf s a = .value v) (ht : Takes i s v t) : Effect i s t
  /-- No answer comes (R100). -/
  | waits {rest : List (Option Reply)} (hp : s.phase ≠ .ready) (hr : s.replies = rest ∨ s.replies = none :: rest) :
      Effect i s { s with replies := rest }
  /-- The device answers with an error (R51). -/
  | accessFails {q : Request} {k : BitVec 32} {rest : List (Option Reply)} (info : BitVec 64) (hp : s.phase ≠ .ready)
      (hr : s.replies = some (.err k) :: rest) :
      Effect i s ((s.answered q (.err k) rest).raiseFault .portError info)
  /-- The read of operand A succeeds (R43, R44, R49). -/
  | reads {a : Operand} {ch rec : Port} {u : BitVec 16} {rest : List (Option Reply)} {t : State} (hp : s.phase = .waitSrc)
      (ha : i.operandA? = some a) (hs : sourceOf s a = .port ch rec) (hr : s.replies = some (.ok u) :: rest)
      (ht : Takes i { s.answered (.read ch) (.ok u) rest with last := rec } (fromPattern u) t) : Effect i s t
  /-- The write of a MOV succeeds (R47). -/
  | writes {a : Operand} {d : Byte} {p : Port} {u : BitVec 16} {rest : List (Option Reply)} (hp : s.phase = .waitDst)
      (hi : i = .mov a d) (hd : destOf s d = .port p) (hr : s.replies = some (.ok u) :: rest) :
      Effect i s { s.answered (.write p s.opa) (.ok u) rest with last := p }.complete

theorem movStore_takes (a : Operand) (d : Byte) (s : State) (v : Value) : Takes (.mov a d) s v (movStore d s v) := by
  obtain ⟨hd, e⟩ | ⟨_, hd, e⟩ | ⟨_, hd, e⟩ := movStore_cases d s v <;> rw [e]
  · exact .toAcc rfl hd
  · exact .toPort rfl hd
  · exact .toNothing rfl hd

/-- A wait for a read goes on as its continuation takes the Value. -/
theorem awaitRead_effect {i : Instr} {s : State} {a : Operand} {ch rec : Port} {k : State → Value → State}
    (hp : s.phase = .waitSrc) (ha : i.operandA? = some a) (hs : sourceOf s a = .port ch rec)
    (hk : ∀ t v, Takes i t v (k t v)) : Effect i s (awaitRead s ch rec k) := by
  have hne : s.phase ≠ .ready := by simp [hp]
  obtain ⟨_, e⟩ | ⟨_, hr, e⟩ | ⟨_, _, hr, e⟩ | ⟨_, _, hr, e⟩ := awaitRead_cases s ch rec k <;> rw [e]
  · exact .waits hne (.inl rfl)
  · exact .waits hne (.inr hr)
  · exact .accessFails _ hne hr
  · exact .reads hp ha hs hr (hk _ _)

theorem awaitWrite_effect {s : State} {a : Operand} {d : Byte} {p : Port} (hp : s.phase = .waitDst)
    (hd : destOf s d = .port p) : Effect (.mov a d) s (awaitWrite s p) := by
  have hne : s.phase ≠ .ready := by simp [hp]
  obtain ⟨_, e⟩ | ⟨_, hr, e⟩ | ⟨_, _, hr, e⟩ | ⟨_, _, hr, e⟩ := awaitWrite_cases s p <;> rw [e]
  · exact .waits hne (.inl rfl)
  · exact .waits hne (.inr hr)
  · exact .accessFails _ hne hr
  · exact .writes hp rfl hd hr

/-- A source that reaches something is a literal or a legal selector byte, so the operand passes the check of R96. -/
theorem selectorOf_isSome_of_source (s : State) {a : Operand} (h : ∀ c, sourceOf s a ≠ .illegal c) (b : Byte)
    (hb : a = .sel b) : (selectorOf b).isSome = true := selectorOf_of_sourceOf (s := s) (hb ▸ h)

theorem selectorsLegal_mov {a : Operand} {d : Byte} (ha : ∀ b, a = .sel b → (selectorOf b).isSome = true)
    (hd : (selectorOf d).isSome = true) : selectorsLegal (.mov a d) = true := by
  cases a with
  | lit v => exact hd
  | sel b => simp [selectorsLegal, ha b rfl, hd]

theorem execMov_effect {a : Operand} {d : Byte} {s t : State} (h : execMov a d s = .next t) : Effect (.mov a d) s t := by
  obtain ⟨hp, ⟨b, _, rfl⟩ | ⟨b, _, rfl⟩ | ⟨_, ⟨hs, hd⟩, rfl⟩ | ⟨_, _, hs, hd, rfl⟩⟩ | ⟨hp, _, _, hs, rfl⟩ |
    ⟨hp, _, hd, rfl⟩ := execMov_cases h
  · exact .badSelector _ b hp
  · exact .badSelector _ b hp
  · exact .takes hp (selectorsLegal_mov (selectorOf_isSome_of_source s (by simp [hs])) hd) rfl hs (movStore_takes ..)
  · exact .issuesRead hp (selectorsLegal_mov (selectorOf_isSome_of_source s (by simp [hs])) hd) rfl hs
  · exact awaitRead_effect hp rfl hs (movStore_takes a d)
  · exact awaitWrite_effect hp hd

/-- ADD and SUB have operand A alone to check and to take. -/
theorem arithmetic_effect {i : Instr} {f : Value → Value → Value} {a : Operand} {s t : State}
    (hi : i = .add a ∧ f = addValue ∨ i = .sub a ∧ f = subValue) (h : arithmetic f a s = .next t) : Effect i s t := by
  have ha : i.operandA? = some a := by obtain ⟨rfl, _⟩ | ⟨rfl, _⟩ := hi <;> rfl
  have hl (hs : ∀ c, sourceOf s a ≠ .illegal c) : selectorsLegal i = true := by
    have hb := selectorOf_isSome_of_source s hs
    cases a with
    | lit v => obtain ⟨rfl, _⟩ | ⟨rfl, _⟩ := hi <;> rfl
    | sel b => obtain ⟨rfl, _⟩ | ⟨rfl, _⟩ := hi <;> exact hb b rfl
  obtain ⟨hp, ⟨b, _, rfl⟩ | ⟨_, hs, rfl⟩ | ⟨_, _, hs, rfl⟩⟩ | ⟨hp, _, _, hs, rfl⟩ := arithmetic_cases h
  · exact .badSelector _ b hp
  · exact .takes hp (hl (by simp [hs])) ha hs (.accumulates hi)
  · exact .issuesRead hp (hl (by simp [hs])) ha hs
  · exact awaitRead_effect hp ha hs fun _ _ => .accumulates hi

/-- A conditional jump goes to its target or to the next record (R113). -/
theorem jumpIf_effect {i : Instr} (hop : i.operandA? = none) (s : State) (c : Bool) (target : BitVec 24) :
    Effect i s (s.jumpIf c target) := by
  cases c
  · exact .moves hop (.inl rfl) (.inl rfl) (.inl rfl)
  · exact .moves hop (.inl rfl) (.inl rfl) (.inr (.inl ⟨target, rfl⟩))

/-- Every instruction's step is one of the effects. -/
theorem exec_effect {i : Instr} {s t : State} (h : exec i s = .next t) : Effect i s t := by
  cases i with
  | mov a d => exact execMov_effect h
  | add a => exact arithmetic_effect (.inl ⟨rfl, rfl⟩) h
  | sub a => exact arithmetic_effect (.inr ⟨rfl, rfl⟩) h
  | nop => cases h; exact .moves rfl (.inl rfl) (.inl rfl) (.inl rfl)
  | swp => cases h; exact .moves rfl (.inr (.inl rfl)) (.inr rfl) (.inl rfl)
  | sav => cases h; exact .moves rfl (.inl rfl) (.inr rfl) (.inl rfl)
  | neg => cases h; exact .moves rfl (.inr (.inr rfl)) (.inl rfl) (.inl rfl)
  | jmp target => cases h; exact .moves rfl (.inl rfl) (.inl rfl) (.inr (.inl ⟨target, rfl⟩))
  | jez | jnz | jgz | jlz => cases h; exact jumpIf_effect rfl ..
  | jro =>
    obtain ⟨_, hj, e⟩ | ⟨hj, e⟩ := execJro_cases s <;> rw [exec, e] at h <;> cases h
    · exact .moves rfl (.inl rfl) (.inl rfl) (.inr (.inr hj))
    · exact .outOfRange rfl hj

/-- The record a step executes: the one just fetched at PC (R94), or the one in IR whose instruction waits for a device (R101). -/
def State.Executes (s : State) (w : Record) : Prop :=
  (s.phase = .ready ∧ s.fetch = .record w) ∨ (s.phase ≠ .ready ∧ w = s.ir ∧ s.outstanding.isSome = true)

/-- Everything a step can come to. -/
inductive StepEffect (s : State) : State → Prop
  /-- The run has ended (R104). -/
  | ended (hr : s.runState ≠ .running) : StepEffect s s
  /-- The end of the program (R92). -/
  | halts (hr : s.runState = .running) (hp : s.phase = .ready) (hend : s.progLen.toNat ≤ s.pc.toNat) : StepEffect s s.halt
  /-- No instruction is found at PC (R93, R95). -/
  | undecoded {c : FaultCode} (w : Record) (info : BitVec 64) (hr : s.runState = .running) (hp : s.phase = .ready)
      (hc : c ≠ .noFault) : StepEffect s ({ s with ir := w }.raiseFault c info)
  /-- An instruction runs or goes on (R94, R97, R101). -/
  | executes {w : Record} {i : Instr} {t : State} (hr : s.runState = .running) (hw : s.Executes w)
      (hd : decode w = .decoded i) (h : exec i { s with ir := w } = .next t) : StepEffect s t

theorem step_effect {s t : State} (h : step s = .next t) : StepEffect s t := by
  obtain ⟨hr, rfl⟩ | ⟨hr, hp, ⟨hf, rfl⟩ | ⟨_, rfl⟩ | ⟨w, _, _, _, rfl⟩ | ⟨w, i, hf, hd, h⟩⟩ | ⟨hr, hp, i, q, hd, hq, h⟩ :=
    step_cases h
  · exact .ended hr
  · obtain ⟨hend, _⟩ | ⟨_, _, e⟩ | ⟨_, e⟩ := s.fetch_cases
    · exact .halts hr hp hend
    · cases hf.symm.trans e
    · cases hf.symm.trans e
  · exact .undecoded s.ir _ hr hp (by decide)
  · exact .undecoded w _ hr hp (by decide)
  · exact .executes hr (.inl ⟨hp, hf⟩) hd h
  · exact .executes hr (.inr ⟨hp, rfl, by simp [hq]⟩) hd h

end Sys2Proof.Machine
end

section
/-! PROOF. The invariant of the machine, item by item (10_state.md R18, R26; 20_memory.md R31): each item is kept by every effect, then
by every step. -/

namespace Sys2Proof.Machine

/-! ### ACC, BAK and OPA are Values (R26 (1), R76) -/

theorem Takes.valuesInRange {i : Instr} {s t : State} {v : Value} (h : Takes i s v t) (hv : v.InRange)
    (hs : s.ValuesInRange) : t.ValuesInRange := by
  obtain ⟨hacc, hbak, hopa⟩ := hs
  cases h with
  | toAcc => exact ⟨hv, hbak, hv⟩
  | toPort => exact ⟨hacc, hbak, hv⟩
  | toNothing => exact ⟨hacc, hbak, hopa⟩
  | accumulates hi =>
    obtain ⟨_, rfl⟩ | ⟨_, rfl⟩ := hi
    · exact ⟨inRange_addValue .., hbak, hopa⟩
    · exact ⟨inRange_subValue .., hbak, hopa⟩

/-- A source that is here at once is a Value: a clamped literal, or ACC (R42, R72). -/
theorem sourceOf_value_inRange {w : Record} {i : Instr} {s : State} {a : Operand} {v : Value} (hd : decode w = .decoded i)
    (ha : i.operandA? = some a) (hs : sourceOf s a = .value v) (hacc : s.acc.InRange) : v.InRange := by
  obtain rfl | rfl := sourceOf_value hs
  · exact decode_literal_inRange hd ha
  · exact hacc

theorem Effect.valuesInRange {w : Record} {i : Instr} {s t : State} (h : Effect i s t) (hd : decode w = .decoded i)
    (hs : s.ValuesInRange) : t.ValuesInRange := by
  have ⟨hacc, hbak, hopa⟩ := hs
  cases h with
  | moves _ hacc' hbak' _ =>
    refine ⟨?_, ?_, hopa⟩
    · obtain rfl | rfl | rfl := hacc'
      · exact hacc
      · exact hbak
      · exact inRange_negateValue _
    · obtain rfl | rfl := hbak'
      · exact hbak
      · exact hacc
  | takes _ _ ha hv ht => exact ht.valuesInRange (sourceOf_value_inRange hd ha hv hacc) hs
  | reads _ _ _ _ ht => exact ht.valuesInRange (inRange_fromPattern _) hs
  | outOfRange | badSelector | issuesRead | waits | accessFails | writes => exact hs

/-- Settles O51: by the effect of the step; what enters ACC or OPA from outside is clamped. -/
theorem valuesStayInRange : Obligations.ValuesStayInRange := by
  intro s t hs h
  cases step_effect h with
  | ended | halts | undecoded => exact hs
  | executes _ _ hd h => exact (exec_effect h).valuesInRange hd hs

/-! ### PC stays bounded (R18) -/

theorem Takes.pc {i : Instr} {s t : State} {v : Value} (h : Takes i s v t) : t.pc = s.pc ∨ t.pc = s.pc + 4 := by
  cases h with
  | toPort | toNothing => exact .inl rfl
  | toAcc | accumulates => exact .inr rfl

/-- Where an effect can leave PC (R98, R112, R119). -/
theorem Effect.pc {i : Instr} {s t : State} (h : Effect i s t) :
    t.pc = s.pc ∨ t.pc = s.pc + 4 ∨ (∃ target : BitVec 24, t.pc = target.setWidth 32) ∨
      jroTarget s.jroNegPolicy s.progLen s.acc = some t.pc := by
  cases h with
  | moves _ _ _ hpc => exact .inr hpc
  | takes _ _ _ _ ht => exact ht.pc.imp_right .inl
  | reads _ _ _ _ ht => exact ht.pc.imp_right .inl
  | writes => exact .inr (.inl rfl)
  | outOfRange | badSelector | issuesRead | waits | accessFails => exact .inl rfl

/-- Under every policy but `castUnsigned` JRO goes to a Value that is not negative, or inside the program (R119). -/
theorem jroTarget_le {policy : JroNegPolicy} {len p : BitVec 32} {a : Value} (hpol : policy ≠ .castUnsigned)
    (hlen : 0 < len.toNat) (ha : a.InRange) (h : jroTarget policy len a = some p) : p.toNat ≤ max len.toNat 999 := by
  have hle := ha.2
  unfold vmax at hle
  unfold jroTarget at h
  split at h
  · cases h
    rw [BitVec.toNat_ofInt]
    omega
  · cases policy with
    | fault => cases h
    | clampZero => cases h; simp
    | wrapModLen =>
      cases h
      have h0 := Int.emod_nonneg a.toInt (b := len.toNat) (by omega)
      have h1 := Int.emod_lt_of_pos a.toInt (b := len.toNat) (by omega)
      rw [BitVec.toNat_ofInt]
      omega
    | castUnsigned => exact absurd rfl hpol

/-- An effect of a record that lies inside the program keeps the bound: `PC + 4` is still inside, and a packed target is below
2^24. -/
theorem Effect.pcBounded {i : Instr} {s t : State} (h : Effect i s t) (hfit : s.pc.toNat + 4 ≤ s.progLen.toNat)
    (hacc : s.acc.InRange) (hpol : s.jroNegPolicy ≠ .castUnsigned) : t.pc.toNat ≤ max s.progLen.toNat (2 ^ 24 - 1) := by
  obtain e | e | ⟨target, e⟩ | e := h.pc
  · rw [e]
    omega
  · rw [e]
    bv_omega
  · have := target.isLt
    rw [e, BitVec.toNat_setWidth]
    omega
  · have := jroTarget_le hpol (by omega) hacc e
    omega

/-- The record a step executes lies inside the program: it was just fetched, or it is the one that holds at PC (R25, R37). -/
theorem State.Executes.fetch {s : State} {w : Record} (hw : s.Executes w) (hs : s.HoldConsistent) :
    s.fetch = .record w := by
  obtain ⟨_, hf⟩ | ⟨hp, rfl, _⟩ := hw
  · exact hf
  · obtain hr | ⟨hf, _, _⟩ := hs
    · exact absurd hr hp
    · exact hf

/-- Settles O52: only an executing step moves PC, and the invariant puts its record inside the program. -/
theorem pcStaysBounded : Obligations.PcStaysBounded := by
  intro s t ⟨hv, _, _, hhold, _⟩ hb hpol h
  cases step_effect h with
  | ended | halts | undecoded => exact hb
  | executes _ hw _ h =>
    have hfit := State.fetch_record_le (hw.fetch hhold)
    rw [State.PcBounded, (exec_frame h).progLen]
    exact (exec_effect h).pcBounded hfit hv.1 hpol

/-! ### STATUS and the ends of a run (R26 (3) and (5), R124) -/

theorem Takes.status {i : Instr} {s t : State} {v : Value} (h : Takes i s v t) :
    (t.runState = .faulted ∧ t.faultCode ≠ .noFault ∧ t.phase = .ready) ∨
    (t.runState = s.runState ∧ t.faultCode = s.faultCode ∧ t.faultInfo = s.faultInfo) := by
  cases h with
  | toNothing => exact .inl ⟨rfl, by simp, rfl⟩
  | toAcc | toPort | accumulates => exact .inr ⟨rfl, rfl, rfl⟩

/-- An effect either is a fault, with its code, or leaves STATUS alone. -/
theorem Effect.status {i : Instr} {s t : State} (h : Effect i s t) :
    (t.runState = .faulted ∧ t.faultCode ≠ .noFault ∧ t.phase = .ready) ∨
    (t.runState = s.runState ∧ t.faultCode = s.faultCode ∧ t.faultInfo = s.faultInfo) := by
  cases h with
  | takes _ _ _ _ ht => exact ht.status
  | reads _ _ _ _ ht => exact ht.status
  | outOfRange | badSelector | accessFails => exact .inl ⟨rfl, by simp, rfl⟩
  | moves | issuesRead | waits | writes => exact .inr ⟨rfl, rfl, rfl⟩

/-- A core that has faulted with a code has a consistent STATUS and end. -/
theorem statusEnd_of_faulted {t : State} (hr : t.runState = .faulted) (hc : t.faultCode ≠ .noFault) (hp : t.phase = .ready) :
    t.StatusConsistent ∧ t.EndConsistent := by
  simp [State.StatusConsistent, State.EndConsistent, hr, hc, hp]

theorem Effect.statusEnd {i : Instr} {s t : State} (h : Effect i s t) (hr : s.runState = .running)
    (hs : s.StatusConsistent) : t.StatusConsistent ∧ t.EndConsistent := by
  obtain ⟨hf, hc, hp⟩ | ⟨hr', hc, hi⟩ := h.status
  · exact statusEnd_of_faulted hf hc hp
  · refine ⟨?_, ?_⟩
    · simpa [State.StatusConsistent, hr', hc, hi] using hs
    · simp [State.EndConsistent, hr', hr]

/-! ### A hold waits for the transaction of the record at PC (R24, R25, R96, R100) -/

theorem sourceOf_congr {s t : State} (hm : t.downReadMode = s.downReadMode) (hl : t.last = s.last) (hacc : t.acc = s.acc)
    (a : Operand) : sourceOf t a = sourceOf s a := by
  unfold sourceOf readSelector
  rw [hm, hl, hacc]

theorem destOf_congr {s t : State} (hl : t.last = s.last) (d : Byte) : destOf t d = destOf s d := by
  unfold destOf writeSelector
  rw [hl]

theorem State.outstanding_waitSrc {s : State} {i : Instr} {a : Operand} {ch rec : Port} (hp : s.phase = .waitSrc)
    (hd : decode s.ir = .decoded i) (ha : i.operandA? = some a) (hs : sourceOf s a = .port ch rec) :
    s.outstanding = some (.read ch) := by
  simp only [State.outstanding, hp, hd, ha, hs]

theorem State.outstanding_waitDst {s : State} {a : Operand} {d : Byte} {p : Port} (hp : s.phase = .waitDst)
    (hd : decode s.ir = .decoded (.mov a d)) (hdst : destOf s d = .port p) : s.outstanding = some (.write p s.opa) := by
  simp only [State.outstanding, hp, hd, hdst]

/-- The devices' answers are no part of what the core asks for. -/
theorem State.outstanding_replies (s : State) (rest : List (Option Reply)) :
    { s with replies := rest }.outstanding = s.outstanding := by
  have hs : ∀ a, sourceOf { s with replies := rest } a = sourceOf s a := sourceOf_congr rfl rfl rfl
  have hd : ∀ d, destOf { s with replies := rest } d = destOf s d := destOf_congr rfl
  simp only [State.outstanding, hs, hd]

/-- Only an instruction with an operand A waits for a device (R99). -/
theorem operandA_ne_none_of_outstanding {s : State} {i : Instr} (hd : decode s.ir = .decoded i)
    (ho : s.outstanding.isSome = true) : i.operandA? ≠ none := by
  obtain ⟨q, hq⟩ := Option.isSome_iff_exists.1 ho
  obtain ⟨_, _, _, _, _, hd', ha, _⟩ | ⟨_, _, _, _, hd', _⟩ := s.outstanding_cases hq <;>
    obtain rfl := Decoded.decoded.inj (hd.symm.trans hd')
  · simp [ha]
  · simp [Instr.operandA?]

/-- A Value that is taken leaves the core ready, or waiting at the same PC for the write of the MOV. -/
theorem Takes.hold {i : Instr} {s t : State} {v : Value} (h : Takes i s v t) (hd : decode s.ir = .decoded i) :
    t.phase = .ready ∨ (t.pc = s.pc ∧ t.outstanding.isSome = true) := by
  cases h with
  | toPort hi hdst =>
    subst hi
    have ho := State.outstanding_waitDst (s := { s with opa := v }.hold .waitDst) rfl (by rw [State.hold_ir]; exact hd)
      ((destOf_congr rfl _).trans hdst)
    exact .inr ⟨rfl, Option.isSome_of_eq_some ho⟩
  | toAcc | toNothing | accumulates => exact .inl rfl

/-- An effect from a state that holds rightly leaves the core ready, or waiting at the same PC for a transaction of an instruction
whose selectors are legal. -/
theorem Effect.hold {i : Instr} {s t : State} (h : Effect i s t) (hd : decode s.ir = .decoded i)
    (hs : s.phase = .ready ∨ (s.outstanding.isSome = true ∧ selectorsLegal i = true)) :
    t.phase = .ready ∨ (t.pc = s.pc ∧ t.outstanding.isSome = true ∧ selectorsLegal i = true) := by
  have held (hp : s.phase ≠ .ready) := hs.resolve_left hp
  cases h with
  | moves hop => exact hs.imp_right fun ⟨ho, _⟩ => absurd hop (operandA_ne_none_of_outstanding hd ho)
  | issuesRead hp hl ha hsrc =>
    have ho := State.outstanding_waitSrc (s := s.hold .waitSrc) rfl hd ha ((sourceOf_congr rfl rfl rfl _).trans hsrc)
    exact .inr ⟨rfl, Option.isSome_of_eq_some ho, hl⟩
  | takes _ hl _ _ ht => exact (ht.hold hd).imp_right fun ⟨hpc, ho⟩ => ⟨hpc, ho, hl⟩
  | reads hp _ _ _ ht => exact (ht.hold hd).imp_right fun ⟨hpc, ho⟩ => ⟨hpc, ho, (held (by simp [hp])).2⟩
  | waits hp _ => exact .inr ⟨rfl, by rw [State.outstanding_replies]; exact held hp⟩
  | outOfRange | badSelector | accessFails | writes => exact .inl rfl

theorem irValidated_of_decode {s : State} {i : Instr} (hd : decode s.ir = .decoded i) : s.irValidated = selectorsLegal i := by
  simp only [State.irValidated, hd]

/-- An instruction that is the record at PC keeps the consistency of a hold. -/
theorem exec_holdConsistent {i : Instr} {s t : State} (h : exec i s = .next t) (hd : decode s.ir = .decoded i)
    (hf : s.fetch = .record s.ir) (hs : s.HoldConsistent) : t.HoldConsistent := by
  have hfr := exec_frame h
  have hd' : decode t.ir = .decoded i := hfr.ir ▸ hd
  have hs' := hs.imp_right fun ⟨_, ho, hv⟩ => And.intro ho (irValidated_of_decode hd ▸ hv)
  refine ((exec_effect h).hold hd hs').imp_right fun ⟨hpc, ho, hl⟩ => ⟨?_, ho, (irValidated_of_decode hd').trans hl⟩
  rw [State.fetch_congr hpc hfr.prog hfr.progLen, hf, hfr.ir]

/-! ### The whole invariant -/

theorem exec_inv {i : Instr} {s t : State} (h : exec i s = .next t) (hr : s.runState = .running)
    (hd : decode s.ir = .decoded i) (hf : s.fetch = .record s.ir) (hs : s.Inv) : t.Inv := by
  obtain ⟨hv, hst, _, hhold, hprog⟩ := hs
  have e := exec_effect h
  have hfr := exec_frame h
  obtain ⟨hst', hend'⟩ := e.statusEnd hr hst
  refine ⟨e.valuesInRange hd hv, hst', hend', exec_holdConsistent h hd hf hhold, ?_⟩
  rw [State.ProgramCanonical, hfr.prog, hfr.progLen]
  exact hprog

/-- A core that is ready may latch any record in IR (R94). -/
theorem State.Inv.latch {s : State} (hs : s.Inv) (hp : s.phase = .ready) (w : Record) : { s with ir := w }.Inv := by
  obtain ⟨hv, hst, hend, _, hprog⟩ := hs
  exact ⟨hv, hst, hend, .inl hp, hprog⟩

theorem State.Inv.raiseFault {s : State} (hs : s.Inv) {c : FaultCode} (hc : c ≠ .noFault) (info : BitVec 64) :
    (s.raiseFault c info).Inv := by
  obtain ⟨hv, _, _, _, hprog⟩ := hs
  obtain ⟨hst', hend'⟩ := statusEnd_of_faulted (t := s.raiseFault c info) rfl hc rfl
  exact ⟨hv, hst', hend', .inl rfl, hprog⟩

theorem State.Inv.halt {s : State} (hs : s.Inv) (hr : s.runState = .running) (hp : s.phase = .ready)
    (hend : s.progLen.toNat ≤ s.pc.toNat) : s.halt.Inv := by
  obtain ⟨hv, ⟨hcode, hinfo⟩, _, _, hprog⟩ := hs
  have hnf : s.faultCode = .noFault := hcode.2 (by simp [hr])
  exact ⟨hv, ⟨by simp [hnf], hinfo⟩, ⟨fun _ => hend, fun _ => hp⟩, .inl hp, hprog⟩

/-- Settles O49: by the effect of the step, from the state in which IR holds the record that executes. -/
theorem everyStepKeepsTheInvariant : Obligations.EveryStepKeepsTheInvariant := by
  intro s t hs h
  cases step_effect h with
  | ended => exact hs
  | halts hr hp hend => exact hs.halt hr hp hend
  | undecoded w info _ hp hc => exact (hs.latch hp w).raiseFault hc info
  | @executes w _ _ hr hw hd h =>
    have ⟨_, _, _, hhold, _⟩ := hs
    have hinv : { s with ir := w }.Inv := by
      obtain ⟨hp, _⟩ | ⟨_, rfl, _⟩ := hw
      · exact hs.latch hp w
      · exact hs
    exact exec_inv h hr hd ((State.fetch_congr rfl rfl rfl).trans (hw.fetch hhold)) hinv

end Sys2Proof.Machine
end

section
/-! PROOF. LAST changes with a successful port access alone (10_state.md R17; 20_memory.md R43, R44, R47). -/

namespace Sys2Proof.Machine

theorem readPort_recorded {mode : DownReadMode} {p ch rec : Port} (h : readPort mode p = .port ch rec)
    (hm : ch = .down ∨ mode ≠ .aliasUpRecordDown) : rec = ch := by
  cases p with
  | up => cases h; rfl
  | down =>
    cases mode <;> cases h
    · exact absurd rfl (hm.resolve_left (by decide))
    · rfl
    · rfl

/-- A read records the channel it uses, unless DownPort reads up and records Down (R43, R44). -/
theorem sourceOf_recorded {s : State} {a : Operand} {ch rec : Port} (h : sourceOf s a = .port ch rec)
    (hm : ch = .down ∨ s.downReadMode ≠ .aliasUpRecordDown) : rec = ch := by
  cases a with
  | lit v => cases h
  | sel b =>
    unfold sourceOf at h
    cases hx : selectorOf b with
    | none => simp [hx] at h
    | some x =>
      simp only [hx] at h
      cases x with
      | accumulator => cases h
      | last => exact readPort_recorded (p := s.last) h hm
      | upPort => exact readPort_recorded (p := .up) h hm
      | downPort => exact readPort_recorded (p := .down) h hm

theorem Takes.last_log {i : Instr} {s t : State} {v : Value} (h : Takes i s v t) : t.last = s.last ∧ t.log = s.log := by
  cases h <;> exact ⟨rfl, rfl⟩

/-- How a step treats LAST and the record of transactions: it completes none and keeps LAST; or one failed and keeps LAST; or one
succeeded, and LAST is the port it records. -/
inductive LastAndLog (s t : State) : Prop
  | quiet (hlog : t.log = s.log) (hlast : t.last = s.last)
  | failed {q : Request} {k : BitVec 32} (hlog : t.log = s.log ++ [⟨q, .err k⟩]) (hlast : t.last = s.last)
  | read {ch rec : Port} {u : BitVec 16} (hlog : t.log = s.log ++ [⟨.read ch, .ok u⟩]) (hlast : t.last = rec)
      (hrec : ch = .down ∨ s.downReadMode ≠ .aliasUpRecordDown → rec = ch)
  | wrote {p : Port} {v u : BitVec 16} (hlog : t.log = s.log ++ [⟨.write p v, .ok u⟩]) (hlast : t.last = p)

theorem Effect.lastAndLog {i : Instr} {s t : State} (h : Effect i s t) : LastAndLog s t := by
  cases h with
  | takes _ _ _ _ ht => exact .quiet ht.last_log.2 ht.last_log.1
  | reads _ _ hs _ ht => exact .read ht.last_log.2 ht.last_log.1 (sourceOf_recorded hs)
  | accessFails => exact .failed rfl rfl
  | writes => exact .wrote rfl rfl
  | moves | outOfRange | badSelector | issuesRead | waits => exact .quiet rfl rfl

theorem step_lastAndLog {s t : State} (h : step s = .next t) : LastAndLog s t := by
  cases step_effect h with
  | ended | halts | undecoded => exact .quiet rfl rfl
  | executes _ _ _ h =>
    cases (exec_effect h).lastAndLog with
    | quiet hlog hlast => exact .quiet hlog hlast
    | failed hlog hlast => exact .failed hlog hlast
    | read hlog hlast hrec => exact .read hlog hlast hrec
    | wrote hlog hlast => exact .wrote hlog hlast

/-- Settles O55: each clause by what the step completed. -/
theorem onlySuccessfulAccessesChangeLast : Obligations.OnlySuccessfulAccessesChangeLast := by
  intro s t h
  cases step_lastAndLog h with
  | quiet hlog hlast => exact ⟨fun hne => absurd hlast hne, by simp [hlog], by simp [hlog]⟩
  | failed hlog hlast => exact ⟨fun hne => absurd hlast hne, by simp [hlog], by simp [hlog]⟩
  | read hlog hlast hrec =>
    refine ⟨fun _ => ⟨_, _, hlog⟩, by simp [hlog], fun p u hlog' hm => ?_⟩
    obtain ⟨rfl, _⟩ : _ = p ∧ _ = u := by simpa [hlog] using hlog'
    rw [hlast, hrec hm]
  | wrote hlog hlast =>
    refine ⟨fun _ => ⟨_, _, hlog⟩, fun p v u hlog' => ?_, by simp [hlog]⟩
    obtain ⟨⟨rfl, _⟩, _⟩ : (_ = p ∧ _ = v) ∧ _ = u := by simpa [hlog] using hlog'
    exact hlast

end Sys2Proof.Machine
end

section
/-! PROOF. What the latches hold when an instruction begins is not looked at (10_state.md R25). -/

namespace Sys2Proof.Machine

/-- OPA is no part of what a source byte reaches. -/
theorem sourceOf_opa (s : State) (y : Value) (a : Operand) : sourceOf { s with opa := y } a = sourceOf s a :=
  sourceOf_congr rfl rfl rfl a

theorem destOf_opa (s : State) (y : Value) (d : Byte) : destOf { s with opa := y } d = destOf s d := destOf_congr rfl d

/-- The states `t` and `t'` agree but for OPA, and in OPA too where a write is outstanding, which sends it (R106). -/
structure SameButOpa (t t' : State) : Prop where
  rest : { t' with opa := t.opa } = t
  opa : t.phase = .waitDst → t'.opa = t.opa

theorem SameButOpa.refl (t : State) : SameButOpa t t := ⟨rfl, fun _ => rfl⟩

/-- Outside the wait for a write OPA may hold anything. -/
theorem SameButOpa.of_phase {t : State} (hp : t.phase ≠ .waitDst) (y : Value) : SameButOpa t { t with opa := y } :=
  ⟨rfl, fun h => absurd h hp⟩

theorem movStore_sameButOpa (d : Byte) (s : State) (v y : Value) :
    SameButOpa (movStore d s v) (movStore d { s with opa := y } v) := by
  have hd := destOf_opa s y d
  cases hs : destOf s d <;> simp only [movStore, hd, hs]
  · exact .refl _
  · exact .refl _
  · exact .of_phase (by simp) y

theorem execMov_withOpa {a : Operand} {d : Byte} {s t : State} (y : Value) (hp : s.phase = .ready)
    (h : execMov a d s = .next t) : ∃ t', execMov a d { s with opa := y } = .next t' ∧ SameButOpa t t' := by
  rw [execMov_ready hp] at h
  rw [execMov_ready (s := { s with opa := y }) hp, sourceOf_opa, destOf_opa]
  cases hs : sourceOf s a with
  | illegal b =>
    simp only [hs] at h ⊢
    cases h
    exact ⟨_, rfl, .of_phase (by simp) y⟩
  | value v =>
    cases hd : destOf s d with
    | illegal b =>
      simp only [hs, hd] at h ⊢
      cases h
      exact ⟨_, rfl, .of_phase (by simp) y⟩
    | acc | port p =>
      simp only [hs, hd] at h ⊢
      cases h
      exact ⟨_, rfl, movStore_sameButOpa d s v y⟩
  | port ch rec =>
    cases hd : destOf s d <;> simp only [hs, hd] at h ⊢ <;> cases h <;> exact ⟨_, rfl, .of_phase (by simp) y⟩

theorem arithmetic_withOpa {f : Value → Value → Value} {a : Operand} {s t : State} (y : Value) (hp : s.phase = .ready)
    (h : arithmetic f a s = .next t) : ∃ t', arithmetic f a { s with opa := y } = .next t' ∧ SameButOpa t t' := by
  rw [arithmetic_ready hp] at h
  rw [arithmetic_ready (s := { s with opa := y }) hp, sourceOf_opa]
  cases hs : sourceOf s a <;> simp only [hs] at h ⊢ <;> cases h
  · exact ⟨_, rfl, .of_phase (by simp [accumulate]) y⟩
  · exact ⟨_, rfl, .of_phase (by simp) y⟩
  · exact ⟨_, rfl, .of_phase (by simp) y⟩

/-- From READY no instruction looks at OPA. -/
theorem exec_withOpa {i : Instr} {s t : State} (y : Value) (hp : s.phase = .ready) (h : exec i s = .next t) :
    ∃ t', exec i { s with opa := y } = .next t' ∧ SameButOpa t t' := by
  cases i with
  | mov a d => exact execMov_withOpa y hp h
  | add a => exact arithmetic_withOpa y hp h
  | sub a => exact arithmetic_withOpa y hp h
  | nop | swp | sav | neg | jmp => cases h; exact ⟨_, rfl, .of_phase (by simp [hp]) y⟩
  | jez | jnz | jgz | jlz =>
    simp only [exec, execJez, execJnz, execJgz, execJlz, State.jumpIf_eq] at h ⊢
    cases h
    exact ⟨_, rfl, .of_phase (by simp [hp]) y⟩
  | jro =>
    obtain ⟨_, hj, e⟩ | ⟨hj, e⟩ := execJro_cases s <;> rw [exec, e] at h <;> cases h <;> simp only [exec, execJro, hj]
    · exact ⟨_, rfl, .of_phase (by simp [hp]) y⟩
    · exact ⟨_, rfl, .of_phase (by simp) y⟩

section ready
variable {s : State} (hr : s.runState = .running) (hp : s.phase = .ready)
include hr hp

/-- R92. -/
theorem step_of_atEnd (hf : s.fetch = .atEnd) : step s = .next s.halt := by
  simp only [step, State.action, hr, hp, State.begin, hf]

/-- R93. -/
theorem step_of_truncated (hf : s.fetch = .truncated) :
    step s = .next (s.raiseFault .fetchBoundsError (boundsInfo s.pc s.progLen)) := by
  simp only [step, State.action, hr, hp, State.begin, hf]

/-- R95. -/
theorem step_of_illegal {w : Record} {b0 : Byte} (hf : s.fetch = .record w) (hd : decode w = .illegal b0) :
    step s = .next ({ s with ir := w }.raiseFault .decodeError (decodeInfo b0)) := by
  simp only [step, State.action, hr, hp, State.begin, hf, hd]

/-- R94, R97. -/
theorem step_of_decoded {w : Record} {i : Instr} (hf : s.fetch = .record w) (hd : decode w = .decoded i) :
    step s = exec i { s with ir := w } := by
  simp only [step, State.action, hr, hp, State.begin, hf, hd]

end ready

/-- Settles O59: the fetch does not look at the latches, IR is latched anew, and the instruction does not look at OPA. -/
theorem hiddenLatchesAreNeverReadEarly : Obligations.HiddenLatchesAreNeverReadEarly := by
  intro s t x y hr hp h
  have hfetch : { s with ir := x, opa := y }.fetch = s.fetch := State.fetch_congr rfl rfl rfl
  obtain ⟨hne, _⟩ | ⟨_, _, ⟨hf, rfl⟩ | ⟨hf, rfl⟩ | ⟨w, _, hf, hd, rfl⟩ | ⟨w, _, hf, hd, h⟩⟩ | ⟨_, hne, _⟩ := step_cases h
  · exact absurd hr hne
  · exact ⟨_, step_of_atEnd (s := { s with ir := x, opa := y }) hr hp (hfetch.trans hf), rfl, by simp [hp], by simp [hp]⟩
  · exact ⟨_, step_of_truncated (s := { s with ir := x, opa := y }) hr hp (hfetch.trans hf), rfl, by simp, by simp⟩
  · exact ⟨_, step_of_illegal (s := { s with ir := x, opa := y }) hr hp (hfetch.trans hf) hd, rfl, by simp, by simp⟩
  · obtain ⟨t', ht', hrest, hopa⟩ := exec_withOpa y (s := { s with ir := w }) hp h
    have hir : t'.ir = t.ir := by rw [← hrest]
    have hstep := step_of_decoded (s := { s with ir := x, opa := y }) hr hp (hfetch.trans hf) hd
    refine ⟨t', hstep.trans ht', ?_, fun _ => hir, hopa⟩
    rw [← hir]
    exact hrest
  · exact absurd hp hne

end Sys2Proof.Machine
end

section
/-! PROOF. Reset, the host's load and what the host reads (10_state.md R21, R22, R26 to R28; 20_memory.md R31; 60_exceptions.md R122,
R138). -/

namespace Sys2Proof.Machine

/-- Bytes written from an address on leave the addresses below it alone. -/
theorem Memory.get_writeBytes_below {bs : List Byte} {m : List Host.Cell} {a x : Nat} (hx : x < a) :
    Memory.get (Memory.writeBytes m a bs) x = Memory.get m x := by
  induction bs generalizing m a with
  | nil => rfl
  | cons b bs ih => rw [Memory.writeBytes, ih (by omega), Memory.get_write_other (by omega)]

/-- Each of several bytes written is at its own address. -/
theorem Memory.get_writeBytes {bs : List Byte} {m : List Host.Cell} {a k : Nat} (hm : Memory.wf m = true)
    (hk : k < bs.length) : Memory.get (Memory.writeBytes m a bs) (a + k) = bs[k] := by
  induction bs generalizing m a k with
  | nil => cases hk
  | cons b bs ih =>
    cases k with
    | zero =>
      rw [Memory.writeBytes]
      exact (Memory.get_writeBytes_below (Nat.lt_succ_self a)).trans (Memory.get_write_same hm)
    | succ k =>
      have := ih (a := a + 1) (Memory.wf_write (a := a) (b := b) hm) (Nat.lt_of_succ_lt_succ hk)
      rwa [show a + 1 + k = a + (k + 1) by omega] at this

theorem hostLoad_progLen {s : State} {bytes : List Byte} (h : bytes.length < 2 ^ 32) :
    (s.hostLoad bytes).progLen.toNat = bytes.length :=
  (BitVec.toNat_ofNat ..).trans (Nat.mod_eq_of_lt h)

/-- Settles O46: a read after the load gives the byte loaded, and the load keeps the canonical form. -/
theorem hostLoadPlacesTheProgram : Obligations.HostLoadPlacesTheProgram := by
  intro s bytes h
  have hlen := hostLoad_progLen (s := s) h
  refine ⟨⟨Memory.wf_load bytes, ?_⟩, hlen, fun a => ?_⟩
  · rw [hlen]
    exact Memory.below_writeBytes rfl (by omega)
  · rw [State.byteAt, hlen]
    split
    · rename_i ha
      have hget : Memory.get (Memory.writeBytes [] 0 bytes) a = bytes[a] := by
        simpa using Memory.get_writeBytes (m := []) (a := 0) rfl ha
      rw [List.getElem?_eq_getElem ha, ← hget]
      rfl
    · rename_i ha
      rw [List.getElem?_eq_none (by omega)]

/-- R21: each number of RUN_STATE names one state, and 3 names none. -/
theorem runStateBits_iff (r : RunState) :
    (runStateBits r = 0 ↔ r = .running) ∧ (runStateBits r = 1 ↔ r = .halted) ∧ (runStateBits r = 2 ↔ r = .faulted) ∧
      runStateBits r ≠ 3 := by
  cases r <;> decide

/-- R22, R122: each number of FAULT_CODE up to 5 names one code, and no other number names any. -/
theorem faultCodeBits_iff (c : FaultCode) :
    (faultCodeBits c = 0 ↔ c = .noFault) ∧ (faultCodeBits c = 1 ↔ c = .decodeError) ∧
      (faultCodeBits c = 2 ↔ c = .portError) ∧ (faultCodeBits c = 3 ↔ c = .selectorError) ∧
      (faultCodeBits c = 4 ↔ c = .fetchBoundsError) ∧ (faultCodeBits c = 5 ↔ c = .jroRangeError) ∧
      (faultCodeBits c).toNat < 6 := by
  cases c <;> decide

theorem portBit_eq (p : Port) : portBit p = if p = .up then 0 else 1 := by cases p <;> rfl

/-- The host reads nothing while the run goes on, and everything once it has ended (R138). -/
theorem observe_eq (s : State) :
    s.observe = if s.runState = .running then none else some ⟨s.status, s.pc, s.acc, s.bak, portBit s.last⟩ := by
  unfold State.observe
  cases s.runState <;> rfl

/-- Settles O47: the numbers by the tables of STATUS, the reading by the state of the run. -/
theorem hostReadsStatusAndRegisters : Obligations.HostReadsStatusAndRegisters := by
  intro s
  obtain ⟨hrun, hhalt, hfault, hthree⟩ := runStateBits_iff s.runState
  obtain ⟨h0, h1, h2, h3, h4, h5, h6⟩ := faultCodeBits_iff s.faultCode
  exact ⟨hrun, hhalt, hfault, hthree, h0, h1, h2, h3, h4, h5, h6, rfl, portBit_eq s.last ▸ observe_eq s⟩

/-- Settles O44: the fields of the reset state, as they stand. -/
theorem resetValues : Obligations.ResetValues := ⟨rfl, rfl, rfl, rfl, rfl, rfl⟩

/-- Settles O48: item by item; 0 is a Value, and the empty program is canonical. -/
theorem resetMeetsTheInvariant : Obligations.ResetMeetsTheInvariant := by
  have hzero : (0 : Value).InRange := by decide
  exact ⟨⟨hzero, hzero, hzero⟩, ⟨by decide, fun _ => rfl⟩, ⟨fun _ => Nat.le_refl _, fun _ => rfl⟩, .inl rfl, rfl, rfl⟩

end Sys2Proof.Machine
end

section
/-! PROOF. What the resolver reaches, and how an access is issued (20_memory.md R41 to R47; 41_fetch_execute.md R96, R100;
42_data_movement.md R106). -/

namespace Sys2Proof.Machine

theorem sourceOf_of_selector {s : State} {b : Byte} {x : Selector} (h : selectorOf b = some x) :
    sourceOf s (.sel b) = readSelector s x := by
  simp only [sourceOf, h]

theorem destOf_of_selector {s : State} {b : Byte} {x : Selector} (h : selectorOf b = some x) :
    destOf s b = writeSelector s x := by
  simp only [destOf, h]

theorem sourceOf_of_none {s : State} {b : Byte} (h : selectorOf b = none) : sourceOf s (.sel b) = .illegal b := by
  simp only [sourceOf, h]

/-- The bytes from 4 on name nothing (R62). -/
theorem selectorOf_eq_none {b : Byte} (h : 4 ≤ b.toNat) : selectorOf b = none := by
  obtain ⟨rfl, _⟩ | ⟨rfl, _⟩ | ⟨rfl, _⟩ | ⟨rfl, _⟩ | ⟨_, hn⟩ := selectorOf_cases b
  · exact absurd h (by decide)
  · exact absurd h (by decide)
  · exact absurd h (by decide)
  · exact absurd h (by decide)
  · exact hn

/-- A read of Last is a read of the port selector that LAST names (R41). -/
theorem readSelector_last (s : State) :
    readSelector s .last = if s.last = .up then readSelector s .upPort else readSelector s .downPort := by
  cases h : s.last <;> simp [readSelector, h]

/-- A destination that is ACC or a port is named by a legal byte (R67). -/
theorem destOf_ne_illegal {s : State} {d : Byte} (h : LegalSelector d) (b : Byte) : destOf s d ≠ .illegal b := by
  intro hb
  obtain ⟨hn, _⟩ := (destOf_illegal_iff s d b).1 hb
  simp [LegalSelector, hn] at h

/-- Settles O21: each byte by its selector, and the down port by DOWN_READ_MODE. -/
theorem selectorBytesReach : Obligations.SelectorBytesReach := by
  intro s
  have h0 : selectorOf 0 = some .last := selectorOf_selectorByte .last
  have h1 : selectorOf 1 = some .accumulator := selectorOf_selectorByte .accumulator
  have h2 : selectorOf 2 = some .upPort := selectorOf_selectorByte .upPort
  have h3 : selectorOf 3 = some .downPort := selectorOf_selectorByte .downPort
  have hdown {mode : DownReadMode} (hm : s.downReadMode = mode) : sourceOf s (.sel 3) = readPort mode .down :=
    hm ▸ sourceOf_of_selector h3
  refine ⟨fun _ => rfl, sourceOf_of_selector h1, sourceOf_of_selector h2, hdown, hdown, hdown, ?_, destOf_of_selector h0,
    destOf_of_selector h1, destOf_of_selector h2, destOf_of_selector h3, fun b hb => ?_⟩
  · rw [sourceOf_of_selector h0, sourceOf_of_selector h2, sourceOf_of_selector h3]
    exact readSelector_last s
  · have hn := selectorOf_eq_none hb
    exact ⟨sourceOf_of_none hn, (destOf_illegal_iff s b b).2 ⟨hn, rfl⟩⟩

theorem movStore_of_acc {d : Byte} {s : State} (h : destOf s d = .acc) (v : Value) :
    movStore d s v = { s with opa := v, acc := v }.complete := by
  simp only [movStore, h]

theorem movStore_of_port {d : Byte} {s : State} {p : Port} (h : destOf s d = .port p) (v : Value) :
    movStore d s v = { s with opa := v }.hold .waitDst := by
  simp only [movStore, h]

/-- Settles O24: the Value is here, so MOV goes straight to its write. -/
theorem movOfValueToPortIssuesWrite : Obligations.MovOfValueToPortIssuesWrite := by
  intro s a d v p hp hs hd
  refine ⟨?_, fun hir => State.outstanding_waitDst rfl hir ((destOf_congr rfl d).trans hd)⟩
  rw [exec, execMov_ready hp]
  simp only [hs, hd, movStore_of_port hd]
  rfl

/-- MOV with a legal destination issues the read of its port source (R96, R100). -/
theorem execMov_issues_read {s : State} {a : Operand} {d : Byte} {ch rec : Port} (hp : s.phase = .ready)
    (hs : sourceOf s a = .port ch rec) (hl : LegalSelector d) : execMov a d s = .next (s.hold .waitSrc) := by
  rw [execMov_ready hp]
  cases hd : destOf s d with
  | acc | port p => simp only [hs]
  | illegal b => exact absurd hd (destOf_ne_illegal hl b)

/-- ADD and SUB issue the read of their port source (R100). -/
theorem arithmetic_issues_read {f : Value → Value → Value} {s : State} {a : Operand} {ch rec : Port}
    (hp : s.phase = .ready) (hs : sourceOf s a = .port ch rec) : arithmetic f a s = .next (s.hold .waitSrc) := by
  rw [arithmetic_ready hp]
  simp only [hs]

/-- Settles O25: each of the three issues the read, and the operand A of the record in IR is what the core waits for. -/
theorem portSourceIssuesRead : Obligations.PortSourceIssuesRead := by
  intro s a d ch rec hp hs hl
  refine ⟨execMov_issues_read hp hs hl, arithmetic_issues_read hp hs, arithmetic_issues_read hp hs, fun hir => ?_⟩
  have waits {i : Instr} (hd : decode s.ir = .decoded i) (ha : i.operandA? = some a) :
      State.outstanding { s with phase := .waitSrc } = some (.read ch) :=
    State.outstanding_waitSrc rfl hd ha ((sourceOf_congr rfl rfl rfl a).trans hs)
  simp only [List.mem_cons, List.not_mem_nil, or_false] at hir
  obtain hd | hd | hd := hir
  · exact waits hd rfl
  · exact waits hd rfl
  · exact waits hd rfl

end Sys2Proof.Machine
end

section
/-! PROOF. How an access goes on while the core holds: it waits, fails or succeeds (20_memory.md R43 to R52; 41_fetch_execute.md R100 to
R102). -/

namespace Sys2Proof.Machine

/-! ### The wait for an answer, by the next entry of the list -/

section await
variable {s : State} {rest : List (Option Reply)} {u : BitVec 16} {e : BitVec 32} (ch rec p : Port)
  (k : State → Value → State)

theorem awaitRead_nil (hr : s.replies = []) : awaitRead s ch rec k = s := by
  simp only [awaitRead, hr]

theorem awaitRead_none (hr : s.replies = none :: rest) : awaitRead s ch rec k = { s with replies := rest } := by
  simp only [awaitRead, hr]

theorem awaitRead_err (hr : s.replies = some (.err e) :: rest) :
    awaitRead s ch rec k = (s.answered (.read ch) (.err e) rest).raiseFault .portError (portInfo ch .read e) := by
  simp only [awaitRead, hr]

theorem awaitRead_ok (hr : s.replies = some (.ok u) :: rest) :
    awaitRead s ch rec k = k { s.answered (.read ch) (.ok u) rest with last := rec } (fromPattern u) := by
  simp only [awaitRead, hr]

theorem awaitWrite_nil (hr : s.replies = []) : awaitWrite s p = s := by
  simp only [awaitWrite, hr]

theorem awaitWrite_none (hr : s.replies = none :: rest) : awaitWrite s p = { s with replies := rest } := by
  simp only [awaitWrite, hr]

theorem awaitWrite_err (hr : s.replies = some (.err e) :: rest) :
    awaitWrite s p =
      (s.answered (.write p s.opa) (.err e) rest).raiseFault .portError (portInfo p .write e) := by
  simp only [awaitWrite, hr]

theorem awaitWrite_ok (hr : s.replies = some (.ok u) :: rest) :
    awaitWrite s p = { s.answered (.write p s.opa) (.ok u) rest with last := p }.complete := by
  simp only [awaitWrite, hr]

end await

/-! ### The instruction that holds -/

theorem exec_mov_waitSrc {s : State} {a : Operand} {ch rec : Port} (hp : s.phase = .waitSrc)
    (hs : sourceOf s a = .port ch rec) (d : Byte) : exec (.mov a d) s = .next (awaitRead s ch rec (movStore d)) := by
  simp only [exec, execMov, hp, hs]

theorem arithmetic_waitSrc {s : State} {a : Operand} {ch rec : Port} (hp : s.phase = .waitSrc)
    (hs : sourceOf s a = .port ch rec) (f : Value → Value → Value) :
    arithmetic f a s = .next (awaitRead s ch rec (accumulate f)) := by
  simp only [arithmetic, hp, hs]

theorem exec_mov_waitDst {s : State} {d : Byte} {p : Port} (hp : s.phase = .waitDst) (hd : destOf s d = .port p)
    (a : Operand) : exec (.mov a d) s = .next (awaitWrite s p) := by
  simp only [exec, execMov, hp, hd]

/-- Whatever has an operand A awaits its read, and then takes the Value read (R101, R106, R109, R110). -/
theorem exec_waitSrc {i : Instr} {s : State} {a : Operand} {ch rec : Port} (ha : i.operandA? = some a)
    (hp : s.phase = .waitSrc) (hs : sourceOf s a = .port ch rec) :
    ∃ k : State → Value → State, (∀ t v, Takes i t v (k t v)) ∧ exec i s = .next (awaitRead s ch rec k) := by
  cases i with
  | mov x d => cases ha; exact ⟨movStore d, movStore_takes a d, exec_mov_waitSrc hp hs d⟩
  | add x => cases ha; exact ⟨accumulate addValue, fun _ _ => .accumulates (.inl ⟨rfl, rfl⟩), arithmetic_waitSrc hp hs _⟩
  | sub x => cases ha; exact ⟨accumulate subValue, fun _ _ => .accumulates (.inr ⟨rfl, rfl⟩), arithmetic_waitSrc hp hs _⟩
  | nop | swp | sav | neg | jmp | jez | jnz | jgz | jlz | jro => cases ha

/-- What a read answered with `Ok` leaves to a MOV: its Value, to be stored with the new LAST (R43, R45, R49). -/
theorem exec_mov_readOk {s : State} {a : Operand} {ch rec : Port} {u : BitVec 16} {rest : List (Option Reply)}
    (hp : s.phase = .waitSrc) (hs : sourceOf s a = .port ch rec) (hr : s.replies = some (.ok u) :: rest) (d : Byte) :
    exec (.mov a d) s =
      .next (movStore d { s.answered (.read ch) (.ok u) rest with last := rec } (fromPattern u)) := by
  rw [exec_mov_waitSrc hp hs, awaitRead_ok ch rec _ hr]

/-- Settles O28: the Value read goes to OPA, and the destination is resolved in the state the read has left. -/
theorem answeredReadGoesOnToWrite : Obligations.AnsweredReadGoesOnToWrite := by
  intro s a d ch rec p u rest hp hs hr hd
  have hstore := movStore_of_port (s := { s.answered (.read ch) (.ok u) rest with last := rec })
    ((destOf_congr rfl d).trans hd) (fromPattern u)
  exact ⟨fromPattern u, toInt_ofClamped _, (exec_mov_readOk hp hs hr d).trans (congrArg _ hstore),
    fun hir => State.outstanding_waitDst rfl hir ((destOf_congr rfl d).trans hd)⟩

/-- R134's console pattern `c:00` as a Value (R78; log entry 17): exact at both ends, clamped between them. -/
theorem toInt_fromPattern_console (c : Byte) :
    (fromPattern (c ++ 0#8)).toInt =
      if c.toNat < 4 then (c.toNat : Int) * 256
      else if c.toNat < 128 then 999
      else if c.toNat < 253 then -999
      else ((c.toNat : Int) - 256) * 256 := by
  have hc := c.isLt
  have hn : (c ++ 0#8).toNat = c.toNat * 256 := (toNat_append_add c 0#8).trans (by simp)
  have hu : (c ++ 0#8).toInt = if c.toNat < 128 then (c.toNat : Int) * 256 else ((c.toNat : Int) - 256) * 256 := by
    rw [BitVec.toInt_eq_toNat_cond, hn]
    split <;> split <;> omega
  have hclamp := clamp_cases (c ++ 0#8).toInt
  rw [fromPattern, toInt_ofClamped]
  split at hu <;> split_ifs <;> omega

/-- Settles O60: destination byte 1 is ACC, which takes the clamped console pattern. -/
theorem consoleAnswersEnterClamped : Obligations.ConsoleAnswersEnterClamped := by
  intro s a ch rec c rest hp hs hr
  refine ⟨fromPattern (c ++ 0#8), ?_, toInt_fromPattern_console c⟩
  have hacc (t : State) : destOf t 1 = .acc := destOf_of_selector (selectorOf_selectorByte .accumulator)
  exact (exec_mov_readOk hp hs hr 1).trans (congrArg _ (movStore_of_acc (hacc _) _))

/-- Settles O29: the wait for the write completes MOV. -/
theorem acceptedWriteCompletesMov : Obligations.AcceptedWriteCompletesMov := by
  intro s a d p u rest hp hd hr
  rw [exec_mov_waitDst hp hd, awaitWrite_ok p hr]
  rfl

/-- Settles O30: an `Err` ends either wait in the same fault, whatever would have gone on with the Value. -/
theorem portErrorsFault : Obligations.PortErrorsFault := by
  intro s a d e rest hr
  refine ⟨fun ch rec hp hs => ?_, fun p hp hd => ?_⟩
  · have fails {i : Instr} (ha : i.operandA? = some a) : exec i s =
        .next ((s.answered (.read ch) (.err e) rest).raiseFault .portError (portInfo ch .read e)) := by
      obtain ⟨k, _, h⟩ := exec_waitSrc ha hp hs
      rw [h, awaitRead_err ch rec k hr]
    exact ⟨fails rfl, fails rfl, fails rfl⟩
  · rw [exec_mov_waitDst hp hd, awaitWrite_err p hr]
    rfl

end Sys2Proof.Machine
end

section
/-! PROOF. The step as a whole: what it does with the outstanding transaction and with program memory (20_memory.md R32, R37, R48, R50,
R52; 41_fetch_execute.md R93, R100). -/

namespace Sys2Proof.Machine

/-- Settles O39: the fetch finds no whole record, and reads no byte. -/
theorem truncatedRecordFaults : Obligations.TruncatedRecordFaults := by
  intro s hr hp hlt hle
  obtain ⟨hend, _⟩ | ⟨_, _, hf⟩ | ⟨hfit, _⟩ := s.fetch_cases
  · omega
  · exact step_of_truncated hr hp hf
  · omega

/-- Settles O41: no instruction writes program memory or a parameter, and a step around it does not either. -/
theorem stepKeepsProgramMemory : Obligations.StepKeepsProgramMemory := by
  intro s t h
  cases step_effect h with
  | ended | halts | undecoded => exact ⟨fun _ => rfl, rfl, rfl, rfl, rfl⟩
  | executes _ _ _ h =>
    have hf := exec_frame h
    exact ⟨hf.byteAt_eq, hf.prog, hf.progLen, hf.downReadMode, hf.jroNegPolicy⟩

/-! ### The outstanding transaction (R48, R52) -/

theorem outstanding_of_ready {s : State} (hp : s.phase = .ready) : s.outstanding = none := by
  simp only [State.outstanding, hp]

theorem Takes.replies {i : Instr} {s t : State} {v : Value} (h : Takes i s v t) : t.replies = s.replies := by
  cases h <;> rfl

/-- From READY an instruction completes no transaction and uses no answer (R100). -/
theorem Effect.log_replies_of_ready {i : Instr} {s t : State} (h : Effect i s t) (hp : s.phase = .ready) :
    t.log = s.log ∧ t.replies = s.replies := by
  cases h with
  | moves | outOfRange | badSelector | issuesRead => exact ⟨rfl, rfl⟩
  | takes _ _ _ _ ht => exact ⟨ht.last_log.2, ht.replies⟩
  | waits hne | accessFails _ hne => exact absurd hp hne
  | reads hw | writes hw => exact absurd (hp.symm.trans hw) (by decide)

theorem step_log_replies_of_ready {s t : State} (hp : s.phase = .ready) (h : step s = .next t) :
    t.log = s.log ∧ t.replies = s.replies := by
  cases step_effect h with
  | ended | halts | undecoded => exact ⟨rfl, rfl⟩
  | executes _ _ _ h => exact (exec_effect h).log_replies_of_ready hp

/-- A step of a core that holds goes on with the instruction in IR (R101). -/
theorem step_of_holding {s : State} {i : Instr} {q : Request} (hh : s.Holding) (hd : decode s.ir = .decoded i)
    (ho : s.outstanding = some q) : step s = exec i s := by
  obtain ⟨hr, hp⟩ := hh
  cases hp' : s.phase with
  | ready => exact absurd hp' hp
  | waitSrc | waitDst => simp only [step, State.action, State.resume, hr, hp', hd, ho]

/-- A step of a core that holds awaits the answer to its outstanding transaction; a Value read is taken without a further
transaction. -/
theorem step_awaits_outstanding {s : State} {q : Request} (hr : s.runState = .running) (ho : s.outstanding = some q) :
    (∃ i ch rec k, (∀ t v, Takes i t v (k t v)) ∧ q = .read ch ∧ step s = .next (awaitRead s ch rec k)) ∨
    (∃ p, q = .write p s.opa ∧ step s = .next (awaitWrite s p)) := by
  obtain ⟨hp, i, a, ch, rec, hd, ha, hs, hq⟩ | ⟨hp, a, d, p, hd, hdst, hq⟩ := s.outstanding_cases ho
  · obtain ⟨k, hk, h⟩ := exec_waitSrc ha hp hs
    exact .inl ⟨i, ch, rec, k, hk, hq, (step_of_holding ⟨hr, by simp [hp]⟩ hd ho).trans h⟩
  · exact .inr ⟨p, hq, (step_of_holding ⟨hr, by simp [hp]⟩ hd ho).trans (exec_mov_waitDst hp hdst a)⟩

/-- What can become of the transaction `q` that is outstanding in `s`: no answer comes and nothing else changes, or the device's next
answer completes it. -/
inductive Progress (s : State) (q : Request) : State → Prop
  | waits {rest : List (Option Reply)} (hr : s.replies = rest ∨ s.replies = none :: rest) :
      Progress s q { s with replies := rest }
  | completes {r : Reply} {t : State} (hr : s.replies = some r :: t.replies) (hlog : t.log = s.log ++ [⟨q, r⟩]) :
      Progress s q t

theorem awaitRead_progress {i : Instr} (s : State) (ch rec : Port) {k : State → Value → State}
    (hk : ∀ t v, Takes i t v (k t v)) : Progress s (.read ch) (awaitRead s ch rec k) := by
  obtain ⟨hr, e⟩ | ⟨rest, hr, e⟩ | ⟨_, rest, hr, e⟩ | ⟨u, rest, hr, e⟩ := awaitRead_cases s ch rec k <;> rw [e]
  · exact .waits (.inl rfl)
  · exact .waits (.inr hr)
  · exact .completes hr rfl
  · have ht := hk { s.answered (.read ch) (.ok u) rest with last := rec } (fromPattern u)
    exact .completes (by rw [ht.replies]; exact hr) ht.last_log.2

theorem awaitWrite_progress (s : State) (p : Port) : Progress s (.write p s.opa) (awaitWrite s p) := by
  obtain ⟨hr, e⟩ | ⟨rest, hr, e⟩ | ⟨_, rest, hr, e⟩ | ⟨u, rest, hr, e⟩ := awaitWrite_cases s p <;> rw [e]
  · exact .waits (.inl rfl)
  · exact .waits (.inr hr)
  · exact .completes hr rfl
  · exact .completes hr rfl

theorem step_progress {s t : State} {q : Request} (hr : s.runState = .running) (ho : s.outstanding = some q)
    (h : step s = .next t) : Progress s q t := by
  obtain ⟨_, ch, rec, k, hk, rfl, e⟩ | ⟨p, rfl, e⟩ := step_awaits_outstanding hr ho <;> cases e.symm.trans h
  · exact awaitRead_progress s ch rec hk
  · exact awaitWrite_progress s p

/-- Settles O54: after the end and from READY nothing completes; while the core holds, its transaction waits or is answered. -/
theorem transactionsCompleteInOrder : Obligations.TransactionsCompleteInOrder := by
  intro s t h
  obtain ⟨_, rfl⟩ | ⟨_, hp, _⟩ | ⟨hr, _, _, q, _, ho, _⟩ := step_cases h
  · exact .inl ⟨rfl, .inl rfl, fun _ ho _ => ho⟩
  · obtain ⟨hlog, hrep⟩ := step_log_replies_of_ready hp h
    exact .inl ⟨hlog, .inl hrep, fun q ho => by simp [outstanding_of_ready hp] at ho⟩
  · cases step_progress hr ho h with
    | waits hrep =>
      exact .inl ⟨rfl, hrep.imp_left Eq.symm, fun q ho _ => (State.outstanding_replies s _).trans ho⟩
    | completes hrep hlog => exact .inr ⟨q, _, ho, hrep, hlog⟩

/-- Settles O43: the core awaits its transaction, and a wait without an answer changes nothing else. -/
theorem unansweredHoldChangesNothing : Obligations.UnansweredHoldChangesNothing := by
  intro s ⟨_, _, _, hhold, _⟩ ⟨hr, hp⟩
  obtain ⟨_, ho, _⟩ := hhold.resolve_left hp
  obtain ⟨q, hq⟩ := Option.isSome_iff_exists.1 ho
  obtain ⟨_, ch, rec, k, _, _, hstep⟩ | ⟨p, _, hstep⟩ := step_awaits_outstanding hr hq
  · exact ⟨fun rest hrep => by rw [hstep, awaitRead_none ch rec k hrep],
      fun hrep => core_run_fixed (by rw [hstep, awaitRead_nil ch rec k hrep])⟩
  · exact ⟨fun rest hrep => by rw [hstep, awaitWrite_none p hrep],
      fun hrep => core_run_fixed (by rw [hstep, awaitWrite_nil p hrep])⟩

end Sys2Proof.Machine
end

section
/-! PROOF. What the decoder gives for any four bytes, and for the record of an instruction (30_encoding.md R56 to R74). -/

namespace Sys2Proof

open Machine

/-! ### The opcode and the fields as numbers (R56 to R63) -/

theorem opcodeOf_eq_some_iff (n : BitVec 4) (o : Opcode) : opcodeOf n = some o ↔ opcodeNumber o = n := by
  refine ⟨fun h => ?_, fun h => h ▸ opcodeOf_opcodeNumber o⟩
  simpa using List.find?_some h

/-- The numbers from 13 on are no opcode (R66). -/
theorem opcodeOf_eq_none_iff (n : BitVec 4) : opcodeOf n = none ↔ 13 ≤ n.toNat := by
  revert n; decide

theorem fieldsOf_op_toNat (b0 b1 b2 b3 : Byte) : (fieldsOf b0 b1 b2 b3).op.toNat = b0.toNat % 16 := by
  simp [fieldsOf, BitVec.extractLsb'_toNat]

theorem fieldsOf_lit (b0 b1 b2 b3 : Byte) : (fieldsOf b0 b1 b2 b3).lit = decide (b0.toNat / 16 % 2 = 1) := by
  simp [fieldsOf, BitVec.getLsbD, Nat.testBit_eq_decide_div_mod_eq]

theorem fieldsOf_target (b0 b1 b2 b3 : Byte) :
    (fieldsOf b0 b1 b2 b3).target = BitVec.ofNat 24 (b1.toNat * 65536 + b2.toNat * 256 + b3.toNat) := by
  apply BitVec.eq_of_toNat_eq
  show (b1 ++ b2 ++ b3).toNat = _
  simp only [toNat_append_add, BitVec.toNat_ofNat]
  omega

/-- Operand A is chosen by bit 4 of the first byte (R58, R60). -/
theorem operandOf_fieldsOf (b0 b1 b2 b3 : Byte) :
    operandOf (fieldsOf b0 b1 b2 b3) = if b0.toNat / 16 % 2 = 1 then .lit (fromBytes b1 b2) else .sel b2 := by
  simp only [operandOf, fieldsOf_lit, decide_eq_true_eq]
  rfl

/-! ### The decoder by the opcode's number -/

/-- What decodes is the opcode with the number in bits 3:0, applied to the record's fields (R57, R65, R71). -/
theorem decodeBytes_eq_decoded_iff (b0 b1 b2 b3 : Byte) (i : Instr) :
    decodeBytes b0 b1 b2 b3 = .decoded i ↔
      ∃ o, (opcodeNumber o).toNat = b0.toNat % 16 ∧ instrOf o (fieldsOf b0 b1 b2 b3) = i := by
  simp only [← fieldsOf_op_toNat b0 b1 b2 b3, ← BitVec.toNat_eq, ← opcodeOf_eq_some_iff]
  unfold decodeBytes
  split <;> simp_all

theorem decodeBytes_of_opcode {b0 : Byte} (o : Opcode) (h : b0.toNat % 16 = (opcodeNumber o).toNat) (b1 b2 b3 : Byte) :
    decodeBytes b0 b1 b2 b3 = .decoded (instrOf o (fieldsOf b0 b1 b2 b3)) :=
  (decodeBytes_eq_decoded_iff ..).2 ⟨o, h.symm, rfl⟩

/-- R66. -/
theorem decodeBytes_of_illegal {b0 : Byte} (h : 13 ≤ b0.toNat % 16) (b1 b2 b3 : Byte) :
    decodeBytes b0 b1 b2 b3 = .illegal b0 := by
  rw [← fieldsOf_op_toNat b0 b1 b2 b3] at h
  simp only [decodeBytes, (opcodeOf_eq_none_iff _).2 h]

/-- Every first byte holds an opcode or an illegal number (R57). -/
theorem opcode_or_illegal (b0 : Byte) : (∃ o, b0.toNat % 16 = (opcodeNumber o).toNat) ∨ 13 ≤ b0.toNat % 16 := by
  rw [← fieldsOf_op_toNat b0 0 0 0]
  cases h : opcodeOf (fieldsOf b0 0 0 0).op with
  | some o => exact .inl ⟨o, by rw [(opcodeOf_eq_some_iff ..).1 h]⟩
  | none => exact .inr ((opcodeOf_eq_none_iff _).1 h)

/-- Settles O3: the opcode's number chooses the instruction, and its operands are the fields. -/
theorem lowNibbleSelectsTheInstruction : Obligations.LowNibbleSelectsTheInstruction := by
  intro b0 b1 b2 b3 n a t
  have ha : operandOf (fieldsOf b0 b1 b2 b3) = a := operandOf_fieldsOf b0 b1 b2 b3
  have ht : (fieldsOf b0 b1 b2 b3).target = t := fieldsOf_target b0 b1 b2 b3
  have hd : (fieldsOf b0 b1 b2 b3).dstsel = b3 := rfl
  obtain ⟨o, ho⟩ | h := opcode_or_illegal b0
  · have hn : n = (opcodeNumber o).toNat := ho
    clear_value n a t
    rw [decodeBytes_of_opcode o ho, hn]
    cases o <;> simp [opcodeNumber, instrOf, ha, ht, hd]
  · have hn : 13 ≤ n := h
    clear_value n a t
    rw [decodeBytes_of_illegal h]
    repeat rw [if_neg (by omega)]

/-! ### Which bits the decoder does not look at (R59, R69) -/

/-- Two records decode to the same instructions when they hold the same opcode, and it makes the same of their fields. -/
theorem decodeBytes_congr {b0 b0' b1 b1' b2 b2' b3 b3' : Byte} (hop : b0.toNat % 16 = b0'.toNat % 16)
    (hf : ∀ o, (opcodeNumber o).toNat = b0.toNat % 16 →
      instrOf o (fieldsOf b0 b1 b2 b3) = instrOf o (fieldsOf b0' b1' b2' b3')) (i : Instr) :
    decodeBytes b0 b1 b2 b3 = .decoded i ↔ decodeBytes b0' b1' b2' b3' = .decoded i := by
  rw [decodeBytes_eq_decoded_iff, decodeBytes_eq_decoded_iff, ← hop]
  exact exists_congr fun o => and_congr_right fun ho => by rw [hf o ho]

/-- The fields hold nothing of bits 7:5 (R59). -/
theorem fieldsOf_congr {b0 b0' : Byte} (h : b0.toNat % 32 = b0'.toNat % 32) (b1 b2 b3 : Byte) :
    fieldsOf b0 b1 b2 b3 = fieldsOf b0' b1 b2 b3 := by
  have hop : (fieldsOf b0 b1 b2 b3).op = (fieldsOf b0' b1 b2 b3).op := by
    apply BitVec.eq_of_toNat_eq
    rw [fieldsOf_op_toNat, fieldsOf_op_toNat]
    omega
  have hlit : (fieldsOf b0 b1 b2 b3).lit = (fieldsOf b0' b1 b2 b3).lit := by
    rw [fieldsOf_lit, fieldsOf_lit, show b0.toNat / 16 % 2 = b0'.toNat / 16 % 2 by omega]
  exact congrArg₂ (fun op lit => { fieldsOf b0 b1 b2 b3 with op := op, lit := lit }) hop hlit

/-- The first byte of every record the encoder writes, as R56 and R74 have it. -/
theorem firstByte_of_encode : ∀ i : Instr, Laws.FirstByte.Statement i
  | .nop => Laws.FirstByte.nop
  | .mov a d => Laws.FirstByte.mov a d
  | .swp => Laws.FirstByte.swp
  | .sav => Laws.FirstByte.sav
  | .add a => Laws.FirstByte.add a
  | .sub a => Laws.FirstByte.sub a
  | .neg => Laws.FirstByte.neg
  | .jmp t => Laws.FirstByte.jmp t
  | .jez t => Laws.FirstByte.jez t
  | .jnz t => Laws.FirstByte.jnz t
  | .jgz t => Laws.FirstByte.jgz t
  | .jlz t => Laws.FirstByte.jlz t
  | .jro => Laws.FirstByte.jro

/-- Settles O4: neither the opcode nor a field holds a reserved bit, and the encoder's first byte starts with three 0 bits. -/
theorem reservedBitsAreIgnored : Obligations.ReservedBitsAreIgnored := by
  refine ⟨fun b0 b0' b1 b2 b3 h => decodeBytes_congr (by omega) fun o _ => by rw [fieldsOf_congr h], fun i => ?_⟩
  obtain ⟨hreserved, _⟩ := firstByte_of_encode i
  have hbits : ((recordByte (encode i) 0).extractLsb' 5 3).toNat = 0 := congrArg BitVec.toNat hreserved
  simp only [recordByte, BitVec.extractLsb'_toNat, Nat.shiftRight_eq_div_pow] at hbits
  have := (encode i).isLt
  omega

/-- Settles O5: the opcodes of each clause make the same instruction of fields that agree where they look. -/
theorem unreadFieldsAreIgnored : Obligations.UnreadFieldsAreIgnored := by
  intro b0 b0' b1 b1' b2 b2' b3 b3' hop i
  refine ⟨fun hn => decodeBytes_congr hop (fun o ho => ?_) i, fun hn => decodeBytes_congr hop (fun o ho => ?_) i,
    fun hn => decodeBytes_congr rfl (fun o ho => ?_) i, fun hn hl => decodeBytes_congr rfl (fun o ho => ?_) i⟩ <;>
    rw [← ho] at hn
  · cases o with
    | nop | swp | sav | neg | jro => rfl
    | mov | add | sub | jmp | jez | jnz | jgz | jlz => exact absurd hn (by decide)
  · cases o with
    | jmp | jez | jnz | jgz | jlz => rfl
    | nop | mov | swp | sav | add | sub | neg | jro => exact absurd hn (by decide)
  · cases o with
    | add | sub => rfl
    | nop | mov | swp | sav | neg | jmp | jez | jnz | jgz | jlz | jro => exact absurd hn (by decide)
  · have ha (x : Byte) : operandOf (fieldsOf b0 x b2 b3) = .sel b2 := by rw [operandOf_fieldsOf, if_neg (by omega)]
    have hd (x : Byte) : (fieldsOf b0 x b2 b3).dstsel = b3 := rfl
    cases o with
    | mov | add | sub => simp only [instrOf, ha, hd]
    | nop | swp | sav | neg | jmp | jez | jnz | jgz | jlz | jro => exact absurd hn (by decide)

/-- Settles O6: each word run through the decoder. -/
theorem writtenOutWordsDecode : Obligations.WrittenOutWordsDecode := by
  refine ⟨?_, ?_, ?_, ?_, ?_, ?_, ?_, ?_⟩ <;> decide

/-! ### Decoding what the encoder writes (R74) -/

/-- The one thing an instruction needs to be well-formed is that its literal is a Value. -/
theorem wellFormed_iff (i : Instr) : i.WellFormed ↔ ∀ a, i.operandA? = some a → a.WellFormed := by
  unfold Instr.WellFormed Instr.wf
  cases i.operandA? with
  | none => simp
  | some a => cases a <;> simp [Operand.WellFormed]

/-- Settles O2: the only literal an instruction can hold is that of its operand A, and the decoder clamps it. -/
theorem decodedInstructionsAreWellFormed : Obligations.DecodedInstructionsAreWellFormed := by
  intro w i hd
  rw [wellFormed_iff]
  intro a ha
  cases a with
  | lit v => exact decode_literal_inRange hd ha
  | sel b => trivial

/-- The encoder's first byte as a number: the opcode, and the literal flag in bit 4 (R56). -/
theorem firstByte_toNat (o : Opcode) (l : Bool) :
    (firstByte o l).toNat % 16 = (opcodeNumber o).toNat ∧ ((firstByte o l).toNat / 16 % 2 = 1 ↔ l = true) := by
  cases o <;> cases l <;> decide

theorem decode_recordOf_firstByte (o : Opcode) (l : Bool) (b1 b2 b3 : Byte) :
    decode (recordOf (firstByte o l) b1 b2 b3) = .decoded (instrOf o (fieldsOf (firstByte o l) b1 b2 b3)) := by
  rw [decode_recordOf, decodeBytes_of_opcode o (firstByte_toNat o l).1]

/-- R80: a Value is read back from its two bytes. -/
theorem fromBytes_toBytes {v : Value} (h : v.InRange) : fromBytes (toBytes v).1 (toBytes v).2 = v := by
  have hbits : v.extractLsb' 8 8 ++ v.extractLsb' 0 8 = v := by
    exact (BitVec.extractLsb'_append_extractLsb'_eq_extractLsb' rfl).trans BitVec.extractLsb'_eq_self
  rw [fromBytes, toBytes, hbits]
  exact ofClamped_toInt_of_inRange h

theorem decode_encodeOperand {o : Opcode} {a : Operand} {b3 : Byte} {i : Instr} (ha : a.WellFormed)
    (hi : ∀ f : Fields, operandOf f = a → f.dstsel = b3 → instrOf o f = i) :
    decode (encodeOperand o a b3) = .decoded i := by
  cases a with
  | lit v =>
    refine (decode_recordOf_firstByte ..).trans (congrArg _ (hi _ ?_ rfl))
    rw [operandOf_fieldsOf, if_pos ((firstByte_toNat o true).2.2 rfl), fromBytes_toBytes ha]
  | sel b =>
    refine (decode_recordOf_firstByte ..).trans (congrArg _ (hi _ ?_ rfl))
    rw [operandOf_fieldsOf, if_neg (by simp [firstByte_toNat])]

/-- A jump's record is that of its target's three bytes (R63). -/
theorem encodeTarget_eq_recordOf (o : Opcode) (t : BitVec 24) :
    encodeTarget o t = recordOf (firstByte o false) (t.extractLsb' 16 8) (t.extractLsb' 8 8) (t.extractLsb' 0 8) := by
  have ht := t.isLt
  apply BitVec.eq_of_toNat_eq
  rw [encodeTarget, toNat_append_add, toNat_recordOf]
  simp only [BitVec.extractLsb'_toNat, Nat.shiftRight_eq_div_pow]
  omega

theorem decode_encodeTarget {o : Opcode} {t : BitVec 24} {i : Instr}
    (hi : ∀ f : Fields, f.target = t → instrOf o f = i) : decode (encodeTarget o t) = .decoded i := by
  have ht := t.isLt
  rw [encodeTarget_eq_recordOf]
  refine (decode_recordOf_firstByte ..).trans (congrArg _ (hi _ ?_))
  apply BitVec.eq_of_toNat_eq
  rw [fieldsOf_target]
  simp only [BitVec.extractLsb'_toNat, Nat.shiftRight_eq_div_pow, BitVec.toNat_ofNat]
  omega

/-- Settles O1: by the form of the record (with operand A, with a target, or with neither), whose fields are read back. -/
theorem decodeEncodeRoundTrip : Obligations.DecodeEncodeRoundTrip := by
  intro i hi
  have ha := (wellFormed_iff i).1 hi
  cases i with
  | nop | swp | sav | neg | jro => exact decode_recordOf_firstByte ..
  | mov a d => exact decode_encodeOperand (ha a rfl) fun f hop hdst => by rw [instrOf, hop, hdst]
  | add a | sub a => exact decode_encodeOperand (ha a rfl) fun f hop _ => by rw [instrOf, hop]
  | jmp t | jez t | jnz t | jgz t | jlz t => exact decode_encodeTarget fun f ht => by rw [instrOf, ht]

end Sys2Proof
end

section
/-! PROOF. The instructions that touch no port (42_data_movement.md R107, R108; 43_arithmetic.md R83, R111; 44_control_transfer.md R114
to R118), and what writes ACC and BAK (10_state.md R15, R16). -/

namespace Sys2Proof.Machine

/-- Settles O14: no field is looked at, and both registers are read before either is written. -/
theorem swpExchangesAccAndBak : Obligations.SwpExchangesAccAndBak :=
  ⟨fun _ b1 b2 b3 h => decodeBytes_of_opcode .swp h b1 b2 b3, by decide, fun _ => rfl⟩

/-- Settles O15: no field is looked at, and ACC is copied. -/
theorem savCopiesAccToBak : Obligations.SavCopiesAccToBak :=
  ⟨fun _ b1 b2 b3 h => decodeBytes_of_opcode .sav h b1 b2 b3, by decide, fun _ => rfl⟩

/-- Negation is exact on Values: the range is symmetric (R83, conflict C2). -/
theorem toInt_negateValue {a : Value} (h : a.InRange) : (negateValue a).toInt = -a.toInt := by
  obtain ⟨hmin, hmax⟩ := h
  have hc := clamp_cases (-a.toInt)
  unfold vmin at hmin
  unfold vmax at hmax
  rw [negateValue, toInt_ofClamped]
  omega

/-- Two negations restore a Value (R83). -/
theorem negateValue_negateValue {a : Value} (h : a.InRange) : negateValue (negateValue a) = a := by
  apply BitVec.eq_of_toInt_eq
  rw [toInt_negateValue (inRange_negateValue a), toInt_negateValue h, neg_neg]

/-- Settles O16: the negation of the value unit. -/
theorem negNegatesAcc : Obligations.NegNegatesAcc := by
  refine ⟨fun _ b1 b2 b3 h => decodeBytes_of_opcode .neg h b1 b2 b3, by decide, fun s => ?_⟩
  refine ⟨negateValue s.acc, rfl, toInt_ofClamped _, fun hacc => ⟨toInt_negateValue hacc, ?_⟩⟩
  calc exec .neg { s with acc := negateValue s.acc, pc := s.pc + 4 }
      = .next { s with acc := negateValue (negateValue s.acc), pc := s.pc + 4 + 4 } := rfl
    _ = .next { s with pc := s.pc + 4 + 4 } := by rw [negateValue_negateValue hacc]

/-- A record with a jump's opcode decodes to the jump to its packed target, whatever its literal flag is (R63, R69). -/
theorem decodeBytes_of_jump {b0 : Byte} (o : Opcode) {jump : BitVec 24 → Instr}
    (hj : ∀ f, instrOf o f = jump f.target) (h : b0.toNat % 16 = (opcodeNumber o).toNat)
    (b1 b2 b3 : Byte) :
    decodeBytes b0 b1 b2 b3 = .decoded (jump (BitVec.ofNat 24 (b1.toNat * 65536 + b2.toNat * 256 + b3.toNat))) := by
  rw [decodeBytes_of_opcode o h, hj, fieldsOf_target]

/-- Settles O17: the packed target goes to PC. -/
theorem jmpSetsPcToTarget : Obligations.JmpSetsPcToTarget :=
  ⟨fun _ b1 b2 b3 h => decodeBytes_of_jump .jmp (fun _ => rfl) h b1 b2 b3, fun t s => by rw [BitVec.ofNat_toNat]; rfl⟩

/-- A jump on a test of ACC as a number (R85, R113). -/
theorem State.jumpIf_decide (s : State) (c : Prop) [Decidable c] (t : BitVec 24) :
    s.jumpIf (decide c) t = { s with pc := if c then BitVec.ofNat 32 t.toNat else s.pc + 4 } := by
  rw [State.jumpIf_eq, BitVec.ofNat_toNat]
  simp only [decide_eq_true_eq]

/-- Settles O18: each of the four is `jumpIf` on its own test. -/
theorem conditionalJumpsTestAcc : Obligations.ConditionalJumpsTestAcc := by
  refine ⟨fun b0 b1 b2 b3 => ?_, fun t s => ?_⟩
  · have jumps (o : Opcode) {jump : BitVec 24 → Instr} (hj : ∀ f, instrOf o f = jump f.target)
        (h : b0.toNat % 16 = (opcodeNumber o).toNat) := decodeBytes_of_jump o hj h b1 b2 b3
    exact ⟨jumps .jez fun _ => rfl, jumps .jnz fun _ => rfl, jumps .jgz fun _ => rfl, jumps .jlz fun _ => rfl⟩
  · exact ⟨congrArg _ (s.jumpIf_decide _ t), congrArg _ (s.jumpIf_decide _ t), congrArg _ (s.jumpIf_decide _ t),
      congrArg _ (s.jumpIf_decide _ t)⟩

/-! ### What writes ACC and BAK (R15, R16) -/

/-- A jump that does not fault moves PC alone (R112, R119). -/
theorem exec_jump_cases {i : Instr} {s t : State} (hj : isJump i = true) (h : exec i s = .next t) :
    (∃ p, t = { s with pc := p }) ∨
    (i = .jro ∧ jroTarget s.jroNegPolicy s.progLen s.acc = none ∧ t = s.raiseFault .jroRangeError (jroInfo s.acc)) := by
  cases i with
  | jmp => cases h; exact .inl ⟨_, rfl⟩
  | jez | jnz | jgz | jlz => cases h; exact .inl ⟨_, State.jumpIf_eq ..⟩
  | jro =>
    obtain ⟨p, _, e⟩ | ⟨hn, e⟩ := execJro_cases s <;> cases e.symm.trans h
    · exact .inl ⟨p, rfl⟩
    · exact .inr ⟨rfl, hn, rfl⟩
  | nop | mov | swp | sav | add | sub | neg => cases hj

theorem exec_jump_acc_bak {i : Instr} {s t : State} (hj : isJump i = true) (h : exec i s = .next t) :
    t.acc = s.acc ∧ t.bak = s.bak := by
  obtain ⟨_, rfl⟩ | ⟨_, _, rfl⟩ := exec_jump_cases hj h <;> exact ⟨rfl, rfl⟩

/-- Byte 1 alone names ACC as a destination (R62). -/
theorem destOf_eq_acc_iff (s : State) (d : Byte) : destOf s d = .acc ↔ d = 1 := by
  obtain ⟨rfl, e⟩ | ⟨rfl, e⟩ | ⟨rfl, e⟩ | ⟨rfl, e⟩ | ⟨hd, e⟩ := selectorOf_cases d
  · exact iff_of_false (by rw [destOf_of_selector e]; nofun) (by decide)
  · exact iff_of_true (destOf_of_selector e) rfl
  · exact iff_of_false (by rw [destOf_of_selector e]; nofun) (by decide)
  · exact iff_of_false (by rw [destOf_of_selector e]; nofun) (by decide)
  · exact iff_of_false (by rw [(destOf_illegal_iff s d d).2 ⟨e, rfl⟩]; nofun) (by rintro rfl; exact absurd hd (by decide))

theorem Takes.acc_of_mov {a : Operand} {d : Byte} {s t : State} {v : Value} (h : Takes (.mov a d) s v t) (hd : d ≠ 1) :
    t.acc = s.acc := by
  cases h with
  | toAcc hi hacc =>
    cases hi
    exact absurd ((destOf_eq_acc_iff s d).1 hacc) hd
  | toPort | toNothing => rfl
  | accumulates hi => simp at hi

/-- A MOV whose destination is not ACC leaves ACC alone, in every phase (R106). -/
theorem exec_mov_acc {a : Operand} {d : Byte} {s t : State} (h : exec (.mov a d) s = .next t) (hd : d ≠ 1) :
    t.acc = s.acc := by
  cases exec_effect h with
  | moves hop => cases hop
  | takes _ _ _ _ ht => exact ht.acc_of_mov hd
  | reads _ _ _ _ ht => exact ht.acc_of_mov hd
  | outOfRange | badSelector | issuesRead | waits | accessFails | writes => rfl

/-- BAK is written by SWP and SAV alone (R16). -/
theorem exec_bak {i : Instr} {s t : State} (h : exec i s = .next t) (hswp : i ≠ .swp) (hsav : i ≠ .sav) : t.bak = s.bak := by
  cases i with
  | mov | add | sub => exact (exec_operandExit (by simp [Instr.operandA?]) h).1.1
  | jmp | jez | jnz | jgz | jlz | jro => exact (exec_jump_acc_bak rfl h).2
  | nop | neg => cases h; rfl
  | swp => exact absurd rfl hswp
  | sav => exact absurd rfl hsav

/-- Settles O34: instruction by instruction. -/
theorem accAndBakWriters : Obligations.AccAndBakWriters := by
  refine fun i s t h => ⟨exec_bak h, ?_⟩
  rintro (hj | rfl | rfl | ⟨a, d, rfl, hd⟩)
  · exact (exec_jump_acc_bak hj h).1
  · cases h; rfl
  · cases h; rfl
  · exact exec_mov_acc h hd

end Sys2Proof.Machine
end

section
/-! PROOF. Instructions whose operand A is here at once or has just been read (42_data_movement.md R106; 43_arithmetic.md R109, R110),
and illegal selector bytes (41_fetch_execute.md R96). -/

namespace Sys2Proof.Machine

/-- From READY completing is advancing (R98). -/
theorem State.complete_of_ready {s : State} (hp : s.phase = .ready) : s.complete = s.advance := by
  rw [State.complete, ← hp]
  rfl

/-- ADD and SUB with operand A here complete at once (R99, R109, R110). -/
theorem arithmetic_of_value {f : Value → Value → Value} {s : State} {a : Operand} {v : Value} (hp : s.phase = .ready)
    (hs : sourceOf s a = .value v) : arithmetic f a s = .next { s with acc := f s.acc v, pc := s.pc + 4 } := by
  rw [arithmetic_ready hp]
  simp only [hs]
  exact congrArg _ (State.complete_of_ready (s := { s with acc := f s.acc v }) hp)

/-- Settles O22: the sum and the difference of the value unit. -/
theorem addSubOfValueComplete : Obligations.AddSubOfValueComplete := fun _ _ _ hp hs =>
  ⟨⟨_, arithmetic_of_value hp hs, toInt_ofClamped _⟩, ⟨_, arithmetic_of_value hp hs, toInt_ofClamped _⟩⟩

theorem destOf_one (s : State) : destOf s 1 = .acc := (destOf_eq_acc_iff s 1).2 rfl

/-- Settles O23: the destination is ACC, so the Value is stored in the same step. -/
theorem movOfValueToAccCompletes : Obligations.MovOfValueToAccCompletes := by
  intro s a v hp hs
  rw [exec, execMov_ready hp]
  simp only [hs, destOf_one, movStore_of_acc (destOf_one s)]
  exact congrArg _ (State.complete_of_ready (s := { s with opa := v, acc := v }) hp)

/-- Settles O27: the Value read goes to OPA and ACC. -/
theorem answeredReadCompletesMovToAcc : Obligations.AnsweredReadCompletesMovToAcc := fun _ _ _ _ u _ hp hs hr =>
  ⟨fromPattern u, toInt_ofClamped _, (exec_mov_readOk hp hs hr 1).trans (congrArg _ (movStore_of_acc (destOf_one _) _))⟩

/-! ### Illegal selector bytes (R67, R96) -/

/-- FAULT_INFO of a selector as a number: the byte, and the field in bit 8 (R123). -/
theorem selectorInfo_eq_ofNat (f : SelField) (b : Byte) :
    selectorInfo f b = BitVec.ofNat 64 ((selFieldBit f).toNat * 256 + b.toNat) := by
  apply BitVec.eq_of_toNat_eq
  rw [selectorInfo, toNat_append_add, toNat_append_add]
  have := b.isLt
  have := (selFieldBit f).isLt
  simp only [BitVec.toNat_ofNat]
  omega

theorem execMov_of_illegal_src {s : State} {a : Operand} {b : Byte} (hp : s.phase = .ready) (hs : sourceOf s a = .illegal b)
    (d : Byte) : execMov a d s = .next (s.raiseSelector .src b) := by
  rw [execMov_ready hp]
  simp only [hs]

theorem execMov_of_illegal_dst {s : State} {a : Operand} {d b : Byte} (hp : s.phase = .ready)
    (hs : ∀ c, sourceOf s a ≠ .illegal c) (hd : destOf s d = .illegal b) :
    execMov a d s = .next (s.raiseSelector .dst b) := by
  rw [execMov_ready hp]
  cases h : sourceOf s a with
  | illegal c => exact absurd h (hs c)
  | value | port => simp only [hd]

theorem arithmetic_of_illegal_src {f : Value → Value → Value} {s : State} {a : Operand} {b : Byte} (hp : s.phase = .ready)
    (hs : sourceOf s a = .illegal b) : arithmetic f a s = .next (s.raiseSelector .src b) := by
  rw [arithmetic_ready hp]
  simp only [hs]

/-- A byte below 4 names a selector (R62). -/
theorem legalSelector_of_lt {b : Byte} (h : b.toNat < 4) : LegalSelector b := by
  obtain ⟨_, e⟩ | ⟨_, e⟩ | ⟨_, e⟩ | ⟨_, e⟩ | ⟨hb, _⟩ := selectorOf_cases b
  · exact Option.isSome_of_eq_some e
  · exact Option.isSome_of_eq_some e
  · exact Option.isSome_of_eq_some e
  · exact Option.isSome_of_eq_some e
  · omega

/-- Settles O31: the source is checked before the destination, and both before anything else. -/
theorem illegalSelectorsFault : Obligations.IllegalSelectorsFault := by
  intro s b d a hp
  refine ⟨fun hb => ?_, fun hd ha => ?_⟩
  · have hs := sourceOf_of_none (s := s) (selectorOf_eq_none hb)
    have hinfo : BitVec.ofNat 64 b.toNat = selectorInfo .src b := by simp [selectorInfo_eq_ofNat, selFieldBit]
    rw [hinfo]
    exact ⟨execMov_of_illegal_src hp hs d, arithmetic_of_illegal_src hp hs, arithmetic_of_illegal_src hp hs⟩
  · have hs (c : Byte) (hc : sourceOf s a = .illegal c) : False := by
      obtain ⟨rfl, hn⟩ := sourceOf_illegal hc
      have hl := legalSelector_of_lt (ha c rfl)
      simp [LegalSelector, hn] at hl
    have hinfo : BitVec.ofNat 64 (256 + d.toNat) = selectorInfo .dst d := by simp [selectorInfo_eq_ofNat, selFieldBit]
    rw [hinfo]
    exact execMov_of_illegal_dst hp hs ((destOf_illegal_iff s d d).2 ⟨selectorOf_eq_none hd, rfl⟩)

end Sys2Proof.Machine
end

section
/-! PROOF. The faults a step can record, each with its cause (60_exceptions.md R122, R123, R127; 41_fetch_execute.md R93, R95, R96, R102;
44_control_transfer.md R119). -/

namespace Sys2Proof.Machine

theorem not_legalSelector_of_none {b : Byte} (h : selectorOf b = none) : ¬ LegalSelector b := by simp [LegalSelector, h]

/-- JRO has no target exactly for a negative ACC under the policy `fault` (R119). -/
theorem jroTarget_eq_none_iff (policy : JroNegPolicy) (len : BitVec 32) (a : Value) :
    jroTarget policy len a = none ↔ a.toInt < 0 ∧ policy = .fault := by
  unfold jroTarget
  split
  · simp only [reduceCtorEq, false_iff]
    omega
  · have hneg : a.toInt < 0 := by omega
    cases policy <;> simp [hneg]

/-- A validated instruction takes its Value without a fault (R96). -/
theorem Takes.not_faulted {i : Instr} {s t : State} {v : Value} (h : Takes i s v t) (hl : selectorsLegal i = true)
    (hr : s.runState = .running) : t.runState ≠ .faulted := by
  cases h with
  | @toNothing a d b hi hd =>
    obtain ⟨hn, _⟩ := (destOf_illegal_iff s d b).1 hd
    cases a <;> simp [hi, selectorsLegal, hn] at hl
  | toAcc | toPort | accumulates => simp [accumulate, hr]

/-! ### From READY: a selector byte that names nothing, or JRO without a target -/

/-- The state a step of the instruction from READY leaves where it faults. -/
inductive ReadyFault (i : Instr) (s : State) : State → Prop
  | source {b : Byte} (ha : i.operandA? = some (.sel b)) (hb : ¬ LegalSelector b) : ReadyFault i s (s.raiseSelector .src b)
  | destination {a : Operand} {d : Byte} (hi : i = .mov a d) (ha : ∀ b, a = .sel b → LegalSelector b)
      (hd : ¬ LegalSelector d) : ReadyFault i s (s.raiseSelector .dst d)
  | jroRange (hi : i = .jro) (hacc : s.acc.toInt < 0) (hpol : s.jroNegPolicy = .fault) :
      ReadyFault i s (s.raiseFault .jroRangeError (jroInfo s.acc))

section ready
variable {s t : State} (hp : s.phase = .ready) (hr : s.runState = .running) (ht : t.runState = .faulted)
include hp hr ht

theorem execMov_ready_fault {a : Operand} {d : Byte} (h : execMov a d s = .next t) : ReadyFault (.mov a d) s t := by
  obtain ⟨_, ⟨b, hs, rfl⟩ | ⟨b, ⟨hd, hs⟩, rfl⟩ | ⟨v, ⟨hs, hd⟩, rfl⟩ | ⟨_, _, _, _, rfl⟩⟩ | ⟨hw, _⟩ | ⟨hw, _⟩ := execMov_cases h
  · obtain ⟨rfl, hn⟩ := sourceOf_illegal hs
    exact .source rfl (not_legalSelector_of_none hn)
  · obtain ⟨hn, rfl⟩ := (destOf_illegal_iff s d b).1 hd
    exact .destination rfl (selectorOf_isSome_of_source s hs) (not_legalSelector_of_none hn)
  · have ha (c : Byte) : sourceOf s a ≠ .illegal c := by simp [hs]
    have hl := selectorsLegal_mov (selectorOf_isSome_of_source s ha) hd
    exact absurd ht ((movStore_takes a d s v).not_faulted hl hr)
  · cases hr.symm.trans ht
  · cases hp.symm.trans hw
  · cases hp.symm.trans hw

theorem arithmetic_ready_fault {i : Instr} {f : Value → Value → Value} {a : Operand} (hi : i.operandA? = some a)
    (h : arithmetic f a s = .next t) : ReadyFault i s t := by
  obtain ⟨_, ⟨b, hs, rfl⟩ | ⟨_, _, rfl⟩ | ⟨_, _, _, rfl⟩⟩ | ⟨hw, _⟩ := arithmetic_cases h
  · obtain ⟨rfl, hn⟩ := sourceOf_illegal hs
    exact .source hi (not_legalSelector_of_none hn)
  · cases hr.symm.trans ht
  · cases hr.symm.trans ht
  · cases hp.symm.trans hw

theorem exec_ready_fault {i : Instr} (h : exec i s = .next t) : ReadyFault i s t := by
  cases i with
  | mov a d => exact execMov_ready_fault hp hr ht h
  | add a | sub a => exact arithmetic_ready_fault hp hr ht rfl h
  | nop | swp | sav | neg => cases h; cases hr.symm.trans ht
  | jmp | jez | jnz | jgz | jlz | jro =>
    obtain ⟨_, rfl⟩ | ⟨hi, hn, rfl⟩ := exec_jump_cases rfl h
    · cases hr.symm.trans ht
    · obtain ⟨hacc, hpol⟩ := (jroTarget_eq_none_iff ..).1 hn
      exact .jroRange hi hacc hpol

end ready

/-! ### While the core holds: the device's `Err`, and nothing else -/

/-- The fault of a port access that the device refuses, by the transaction (R51, R123). -/
def State.RefusedAccess (s t : State) (q : Request) : Prop :=
  t.faultCode = .portError ∧ ∃ k rest, s.replies = some (.err k) :: rest ∧
    ((∃ p, q = .read p ∧ t.faultInfo = portInfo p .read k) ∨ (∃ p u, q = .write p u ∧ t.faultInfo = portInfo p .write k))

theorem awaitRead_fault {i : Instr} {s : State} {ch rec : Port} {k : State → Value → State} (hk : ∀ t v, Takes i t v (k t v))
    (hl : selectorsLegal i = true) (hr : s.runState = .running) (ht : (awaitRead s ch rec k).runState = .faulted) :
    s.RefusedAccess (awaitRead s ch rec k) (.read ch) := by
  obtain ⟨_, e⟩ | ⟨_, _, e⟩ | ⟨err, rest, hrep, e⟩ | ⟨_, _, _, e⟩ := awaitRead_cases s ch rec k <;> rw [e] at ht ⊢
  · cases hr.symm.trans ht
  · cases hr.symm.trans ht
  · exact ⟨rfl, err, rest, hrep, .inl ⟨ch, rfl, rfl⟩⟩
  · exact absurd ht ((hk _ _).not_faulted hl hr)

theorem awaitWrite_fault {s : State} {p : Port} (hr : s.runState = .running) (ht : (awaitWrite s p).runState = .faulted) :
    s.RefusedAccess (awaitWrite s p) (.write p s.opa) := by
  obtain ⟨_, e⟩ | ⟨_, _, e⟩ | ⟨err, rest, hrep, e⟩ | ⟨_, _, _, e⟩ := awaitWrite_cases s p <;> rw [e] at ht ⊢
  · cases hr.symm.trans ht
  · cases hr.symm.trans ht
  · exact ⟨rfl, err, rest, hrep, .inr ⟨p, s.opa, rfl, rfl⟩⟩
  · cases hr.symm.trans ht

/-- A validated instruction that waits faults only where its access is refused (R96, R102). -/
theorem exec_outstanding_fault {i : Instr} {s t : State} {q : Request} (hd : decode s.ir = .decoded i)
    (ho : s.outstanding = some q) (hl : selectorsLegal i = true) (hr : s.runState = .running) (h : exec i s = .next t)
    (ht : t.runState = .faulted) : s.RefusedAccess t q := by
  obtain ⟨hp, _, a, ch, rec, hd', ha, hs, rfl⟩ | ⟨hp, a, d, p, hd', hdst, rfl⟩ := s.outstanding_cases ho <;>
    cases hd.symm.trans hd'
  · obtain ⟨k, hk, e⟩ := exec_waitSrc ha hp hs
    cases e.symm.trans h
    exact awaitRead_fault hk hl hr ht
  · cases (exec_mov_waitDst hp hdst a).symm.trans h
    exact awaitWrite_fault hr ht

/-- Settles O57: a step that faults has found no whole record or no opcode at PC, has executed an instruction from READY, or has been
refused the access it waited for. -/
theorem everyFaultHasItsCause : Obligations.EveryFaultHasItsCause := by
  intro s t ⟨_, _, _, hhold, _⟩ hr h ht
  obtain ⟨hne, _⟩ | ⟨_, hp, ⟨_, rfl⟩ | ⟨hf, rfl⟩ | ⟨w, b0, hf, hd, rfl⟩ | ⟨w, i, hf, hd, h⟩⟩ | ⟨_, hp, i, q, hd, ho, h⟩ :=
    step_cases h
  · exact absurd hr hne
  · cases ht
  · obtain ⟨_, e⟩ | ⟨hlt, hle, _⟩ | ⟨_, e⟩ := s.fetch_cases
    · cases hf.symm.trans e
    · exact ⟨hp, hlt, hle, rfl⟩
    · cases hf.symm.trans e
  · exact ⟨hp, w, b0, hf, hd, rfl⟩
  · cases exec_ready_fault (s := { s with ir := w }) hp hr ht h with
    | source ha hb => exact ⟨hp, w, i, hf, hd, .inl ⟨_, ha, hb, rfl⟩⟩
    | destination hi ha hdst => exact ⟨hp, w, i, hf, hd, .inr ⟨_, _, hi, ha, hdst, rfl⟩⟩
    | jroRange hi hacc hpol => exact ⟨hp, hacc, hpol, rfl, w, hf, hi ▸ hd⟩
  · obtain ⟨_, _, hv⟩ := hhold.resolve_left hp
    obtain ⟨hcode, k, rest, hrep, hq⟩ := exec_outstanding_fault hd ho ((irValidated_of_decode hd).symm.trans hv) hr h ht
    rw [hcode]
    exact ⟨q, k, rest, ho, hrep, hq⟩

end Sys2Proof.Machine
end

section
/-! PROOF. The value unit (40_value_unit.md R77 to R83, R88), and the answered read that ADD and SUB complete with (43_arithmetic.md
R109, R110). -/

namespace Sys2Proof.Machine

/-! ### The clamp (R77) -/

/-- Settles O7: by the three ranges of the clamp. -/
theorem clampSaturates : Obligations.ClampSaturates := by
  intro n
  have h := clamp_cases n
  exact ⟨fun _ => by omega, fun _ => by omega, fun _ _ => by omega⟩

/-- A Value as a number (R76). -/
theorem toInt_bounds {v : Value} (h : v.InRange) : -999 ≤ v.toInt ∧ v.toInt ≤ 999 := h

theorem clamp_of_inRange {v : Value} (h : v.InRange) : clamp v.toInt = v.toInt := by
  rw [← toInt_ofClamped, ofClamped_toInt_of_inRange h]

theorem clamp_clamp (n : Int) : clamp (clamp n) = clamp n := by
  rw [← toInt_ofClamped n]
  exact clamp_of_inRange (inRange_ofClamped n)

theorem clamp_mono {m n : Int} (h : m ≤ n) : clamp m ≤ clamp n := by
  have hm := clamp_cases m
  have hn := clamp_cases n
  omega

theorem toInt_ofClamped_mono {m n : Int} (h : m ≤ n) : (ofClamped m).toInt ≤ (ofClamped n).toInt := by
  rw [toInt_ofClamped, toInt_ofClamped]
  exact clamp_mono h

/-! ### A Value and its two bytes (R78 to R80) -/

theorem toInt_fromPattern (u : BitVec 16) : (fromPattern u).toInt = clamp u.toInt := toInt_ofClamped _

/-- Settles O8: two's complement on the two bytes appended, which `fromBytes` clamps. -/
theorem fromBytesSignExtendsAndClamps : Obligations.FromBytesSignExtendsAndClamps := by
  intro hi lo u
  have hn : (hi ++ lo).toNat = hi.toNat * 256 + lo.toNat := toNat_append_add hi lo
  have hu : (hi ++ lo).toInt = if u < 2 ^ 15 then u else u - 2 ^ 16 := by
    rw [BitVec.toInt_eq_toNat_cond, hn]
    split <;> split <;> omega
  rw [← hu]
  exact ⟨toInt_fromPattern (hi ++ lo), inRange_fromPattern (hi ++ lo)⟩

/-- The two bytes of a pattern, read as one number, are the pattern (R79). -/
theorem toNat_toBytes (v : Value) : (toBytes v).1.toNat * 256 + (toBytes v).2.toNat = v.toNat := by
  have := v.isLt
  simp only [toBytes, BitVec.extractLsb'_toNat, Nat.shiftRight_eq_div_pow]
  omega

/-- Settles O9: the bytes are those of the pattern, which is the Value mod 2^16. -/
theorem toBytesRoundTrips : Obligations.ToBytesRoundTrips := by
  intro v hv
  refine ⟨?_, fromBytes_toBytes hv⟩
  have := v.isLt
  rw [toNat_toBytes, BitVec.toInt_eq_toNat_cond]
  split <;> omega

/-! ### The arithmetic (R81 to R83, R88) -/

/-- Settles O10: each operand is within 999 of 0, and each result is a clamped integer. -/
theorem addAndSubSaturate : Obligations.AddAndSubSaturate := by
  intro a b ha hb
  have hA := toInt_bounds ha
  have hB := toInt_bounds hb
  exact ⟨by omega, by omega, toInt_ofClamped _, toInt_ofClamped _, inRange_addValue a b, inRange_subValue a b⟩

/-- Settles O11: the range is symmetric. -/
theorem negateIsExactAndInvolutive : Obligations.NegateIsExactAndInvolutive :=
  fun _ ha => ⟨toInt_negateValue ha, negateValue_negateValue ha⟩

/-- Every operation of the unit answers a Value; `pass` needs its input to be one (R88, R90). -/
theorem inRange_valueUnit (op : ValueOp) {a : Value} (b : Value) (ha : a.InRange) :
    (valueUnit op a b).result.InRange := by
  cases op with
  | add => exact inRange_addValue a b
  | sub => exact inRange_subValue a b
  | negate => exact inRange_negateValue a
  | fromBytes => exact inRange_fromPattern a
  | pass => exact ha

theorem addValue_comm (a b : Value) : addValue a b = addValue b a := by
  rw [addValue, addValue, add_comm]

theorem addValue_zero {a : Value} (ha : a.InRange) : addValue a 0 = a := by
  rw [addValue, show (0 : Value).toInt = 0 from rfl, add_zero, ofClamped_toInt_of_inRange ha]

theorem subValue_zero {a : Value} (ha : a.InRange) : subValue a 0 = a := by
  rw [subValue, show (0 : Value).toInt = 0 from rfl, sub_zero, ofClamped_toInt_of_inRange ha]

theorem subValue_eq_addValue_negateValue (a : Value) {b : Value} (hb : b.InRange) :
    subValue a b = addValue a (negateValue b) := by
  rw [subValue, addValue, toInt_negateValue hb, sub_eq_add_neg]

theorem toInt_addValue_mono {a a' : Value} (h : a.toInt ≤ a'.toInt) (b : Value) :
    (addValue a b).toInt ≤ (addValue a' b).toInt := toInt_ofClamped_mono (by omega)

theorem toInt_subValue_antitone {a a' : Value} (h : a.toInt ≤ a'.toInt) (b : Value) :
    (subValue b a').toInt ≤ (subValue b a).toInt := toInt_ofClamped_mono (by omega)

/-- Settles O12: law by law; R88's own instance against associativity is evaluated. -/
theorem valueUnitLaws : Obligations.ValueUnitLaws := by
  refine ⟨fun hi lo => inRange_fromPattern (hi ++ lo), fun op _ b ha _ => inRange_valueUnit op b ha, clamp_clamp,
    fun _ _ => clamp_mono, by decide, by decide, fun a a' b ha _ hb => ?_⟩
  exact ⟨addValue_comm a b, addValue_zero ha, subValue_zero ha, subValue_eq_addValue_negateValue a hb,
    negateValue_negateValue ha, fun h => ⟨toInt_addValue_mono h b, toInt_subValue_antitone h b⟩⟩

/-! ### The answer to a read (R101, R109, R110) -/

/-- What a read answered with `Ok` leaves to ADD and SUB: its Value, to be accumulated with the new LAST on record (R43, R49). -/
theorem arithmetic_readOk {s : State} {a : Operand} {ch rec : Port} {u : BitVec 16} {rest : List (Option Reply)}
    (hp : s.phase = .waitSrc) (hs : sourceOf s a = .port ch rec) (hr : s.replies = some (.ok u) :: rest)
    (f : Value → Value → Value) :
    arithmetic f a s = .next (accumulate f { s.answered (.read ch) (.ok u) rest with last := rec } (fromPattern u)) := by
  rw [arithmetic_waitSrc hp hs, awaitRead_ok ch rec _ hr]

/-- Settles O26: the sum and the difference of ACC and the Value read. -/
theorem answeredReadCompletesAddSub : Obligations.AnsweredReadCompletesAddSub := by
  intro s a ch rec u rest hp hs hr
  rw [← toInt_fromPattern u]
  exact ⟨addValue s.acc (fromPattern u), subValue s.acc (fromPattern u), arithmetic_readOk hp hs hr _,
    arithmetic_readOk hp hs hr _, toInt_ofClamped _, toInt_ofClamped _⟩

end Sys2Proof.Machine
end

section
/-! PROOF. The step before its instruction: the end of a run, the fetch, the record at PC and the instruction that holds
(41_fetch_execute.md R92, R94, R95, R97, R101, R103, R104; 60_exceptions.md R129, R137, R140). -/

namespace Sys2Proof.Machine

/-- The fetch finds the end exactly at or past PROG_LEN (R37, R92). -/
theorem State.fetch_eq_atEnd_iff (s : State) : s.fetch = .atEnd ↔ s.progLen.toNat ≤ s.pc.toNat := by
  obtain ⟨hend, e⟩ | ⟨hlt, _, e⟩ | ⟨hfit, e⟩ := s.fetch_cases
  · exact iff_of_true e hend
  · exact iff_of_false (by simp [e]) (by omega)
  · exact iff_of_false (by simp [e]) (by omega)

/-- Four bytes that can be read at PC are the record fetched (R94). -/
theorem State.fetch_of_memRead {s : State} {b0 b1 b2 b3 : Byte} (h : s.memRead s.pc.toNat 4 = some [b0, b1, b2, b3]) :
    s.fetch = .record (recordOf b0 b1 b2 b3) := by
  obtain ⟨hfit, _⟩ | ⟨_, e⟩ := s.memRead_four s.pc.toNat
  · have hlt : ¬ s.progLen.toNat ≤ s.pc.toNat := by omega
    simp only [State.fetch, if_neg hlt, h]
  · cases h.symm.trans e

/-- R104. -/
theorem step_of_ended {s : State} (h : s.runState ≠ .running) : step s = .next s := by
  cases hr : s.runState with
  | running => exact absurd hr h
  | halted | faulted => simp only [step, State.action, hr]

/-- Settles O36: the four bytes are the record fetched, and it decodes as they do. -/
theorem stepRunsTheRecordAtPc : Obligations.StepRunsTheRecordAtPc := fun _ b0 b1 b2 b3 _ hr hp hm hd =>
  step_of_decoded hr hp (State.fetch_of_memRead hm) ((decode_recordOf b0 b1 b2 b3).trans hd)

/-- Settles O37: the core holds, and its transaction is outstanding. -/
theorem stepResumesTheHoldingInstruction : Obligations.StepResumesTheHoldingInstruction := fun _ _ _ hr hp hd ho =>
  step_of_holding ⟨hr, hp⟩ hd ho

/-- Settles O38: the fetch finds the end of the program. -/
theorem stepHaltsAtTheEnd : Obligations.StepHaltsAtTheEnd := fun s hr hp hend =>
  step_of_atEnd hr hp (s.fetch_eq_atEnd_iff.2 hend)

/-- Settles O42: a state that has ended steps to itself. -/
theorem endedRunsStay : Obligations.EndedRunsStay := fun _ k h => core_run_fixed (step_of_ended h) k

/-- An instruction that a running core executes does not halt it (R92, R97). -/
theorem exec_not_halted {i : Instr} {s t : State} (h : exec i s = .next t) (hr : s.runState = .running) :
    t.runState ≠ .halted := by
  obtain ⟨hf, _⟩ | ⟨hr', _⟩ := (exec_effect h).status
  · simp [hf]
  · simp [hr', hr]

/-- Settles O58: of all a running core can do, only the step whose fetch finds the end halts. -/
theorem runsHaltOnlyAtTheEnd : Obligations.RunsHaltOnlyAtTheEnd := by
  intro s t hr h
  rw [← s.fetch_eq_atEnd_iff]
  obtain ⟨hne, _⟩ | ⟨_, hp, ⟨hf, rfl⟩ | ⟨hf, rfl⟩ | ⟨_, _, hf, _, rfl⟩ | ⟨w, _, hf, _, h⟩⟩ | ⟨_, hp, _, _, _, _, h⟩ :=
    step_cases h
  · exact absurd hr hne
  · exact iff_of_true rfl ⟨hp, hf⟩
  · exact iff_of_false (by simp) (by simp [hf])
  · exact iff_of_false (by simp) (by simp [hf])
  · exact iff_of_false (exec_not_halted (s := { s with ir := w }) h hr) (by simp [hf])
  · exact iff_of_false (exec_not_halted h hr) (by simp [hp])

end Sys2Proof.Machine
end

section
/-! PROOF. What an instruction step comes to: it always answers a next state (41_fetch_execute.md R97; 60_exceptions.md R121), leaves
the ports alone where it has no operand A (R99, R112), advances PC by 4 where it is no jump (R98), and faults with the registers in
place (41_fetch_execute.md R102; 60_exceptions.md R124 to R126). -/

namespace Sys2Proof.Machine

/-! ### Every step answers a next state (R97, R121) -/

/-- MOV from READY answers a next state, whatever its operands reach (R96, R99). -/
theorem execMov_answers_of_ready {s : State} (hp : s.phase = .ready) (a : Operand) (d : Byte) :
    ∃ t, execMov a d s = .next t := by
  rw [execMov_ready hp]
  cases sourceOf s a with
  | illegal b => exact ⟨_, rfl⟩
  | value v => cases destOf s d <;> exact ⟨_, rfl⟩
  | port ch rec => cases destOf s d <;> exact ⟨_, rfl⟩

/-- ADD and SUB from READY answer a next state (R96, R99). -/
theorem arithmetic_answers_of_ready {s : State} (hp : s.phase = .ready) (f : Value → Value → Value) (a : Operand) :
    ∃ t, arithmetic f a s = .next t := by
  rw [arithmetic_ready hp]
  cases sourceOf s a <;> exact ⟨_, rfl⟩

theorem exec_answers_of_ready {s : State} (hp : s.phase = .ready) (i : Instr) : ∃ t, exec i s = .next t := by
  cases i with
  | mov a d => exact execMov_answers_of_ready hp a d
  | add a => exact arithmetic_answers_of_ready hp addValue a
  | sub a => exact arithmetic_answers_of_ready hp subValue a
  | jro => obtain ⟨_, _, e⟩ | ⟨_, e⟩ := execJro_cases s <;> exact ⟨_, e⟩
  | nop | swp | sav | neg | jmp | jez | jnz | jgz | jlz => exact ⟨_, rfl⟩

/-- A core that is ready halts, faults or executes (R91 to R97). -/
theorem step_answers_of_ready {s : State} (hr : s.runState = .running) (hp : s.phase = .ready) :
    ∃ t, step s = .next t := by
  cases hf : s.fetch with
  | atEnd => exact ⟨_, step_of_atEnd hr hp hf⟩
  | truncated => exact ⟨_, step_of_truncated hr hp hf⟩
  | record w =>
    cases hd : decode w with
    | illegal b0 => exact ⟨_, step_of_illegal hr hp hf hd⟩
    | decoded i =>
      obtain ⟨t, ht⟩ := exec_answers_of_ready (s := { s with ir := w }) hp i
      exact ⟨t, (step_of_decoded hr hp hf hd).trans ht⟩

/-- A core with a transaction outstanding awaits its answer (R100, R101). -/
theorem step_answers_of_outstanding {s : State} {q : Request} (hr : s.runState = .running)
    (ho : s.outstanding = some q) : ∃ t, step s = .next t := by
  obtain ⟨_, _, _, _, _, _, e⟩ | ⟨_, _, e⟩ := step_awaits_outstanding hr ho <;> exact ⟨_, e⟩

/-- Settles O50: the run has ended, or the core is ready, or by the invariant it waits for a transaction. -/
theorem everyStepAnswersANextState : Obligations.EveryStepAnswersANextState := by
  intro s ⟨_, _, _, hhold, _⟩
  by_cases hr : s.runState = .running
  · obtain hp | ⟨_, ho, _⟩ := hhold
    · exact step_answers_of_ready hr hp
    · obtain ⟨q, hq⟩ := Option.isSome_iff_exists.1 ho
      exact step_answers_of_outstanding hr hq
  · exact ⟨s, step_of_ended hr⟩

/-! ### Instructions without operand A touch no port (R99, R112) -/

/-- The answers to come are not looked at by an instruction without operand A. -/
theorem exec_withReplies {i : Instr} {s t : State} (hop : i.operandA? = none) (h : exec i s = .next t)
    (r : List (Option Reply)) : exec i { s with replies := r } = .next { t with replies := r } := by
  cases i with
  | nop | swp | sav | neg | jmp => cases h; rfl
  | jez | jnz | jgz | jlz =>
    simp only [exec, execJez, execJnz, execJgz, execJlz, State.jumpIf_eq] at h ⊢
    cases h
    rfl
  | jro =>
    obtain ⟨_, hj, e⟩ | ⟨hj, e⟩ := execJro_cases s <;> cases e.symm.trans h
    · simp only [exec, execJro, hj]
    · simp only [exec, execJro, hj]
      rfl
  | mov | add | sub => cases hop

/-- An instruction without operand A leaves the ports' fields and OPA alone, and PHASE too unless JRO faults. -/
theorem exec_noPort_frame {i : Instr} {s t : State} (hop : i.operandA? = none) (h : exec i s = .next t) :
    t.replies = s.replies ∧ t.log = s.log ∧ t.last = s.last ∧ t.opa = s.opa ∧
      (t.phase = s.phase ∨ (i = .jro ∧ t.runState = .faulted)) := by
  cases i with
  | nop | swp | sav | neg => cases h; exact ⟨rfl, rfl, rfl, rfl, .inl rfl⟩
  | jmp | jez | jnz | jgz | jlz | jro =>
    obtain ⟨_, rfl⟩ | ⟨hi, _, rfl⟩ := exec_jump_cases rfl h
    · exact ⟨rfl, rfl, rfl, rfl, .inl rfl⟩
    · exact ⟨rfl, rfl, rfl, rfl, .inr ⟨hi, rfl⟩⟩
  | mov | add | sub => cases hop

/-- Settles O33: no such instruction writes the fields of the ports or reads the answers. -/
theorem otherInstructionsTouchNoPort : Obligations.OtherInstructionsTouchNoPort := by
  intro i s t hop h
  obtain ⟨hrep, hlog, hlast, hopa, hphase⟩ := exec_noPort_frame hop h
  exact ⟨hrep, hlog, hlast, (exec_frame h).ir, hopa, hphase, exec_withReplies hop h⟩

/-! ### PC advances by 4 (R98) -/

/-- An instruction that is no jump leaves PC where it faults or holds, and else completes one record further on. Only one with an
operand A looks at PHASE, so one without must begin from READY. -/
theorem exec_sequential {i : Instr} {s t : State} (hj : isJump i = false) (hp : s.phase = .ready ∨ i.operandA? ≠ none)
    (h : exec i s = .next t) :
    (t.pc = s.pc ∧ (t.runState = .faulted ∨ t.phase ≠ .ready)) ∨
    (t.pc = s.pc + 4 ∧ t.runState = s.runState ∧ t.phase = .ready) := by
  by_cases hop : i.operandA? = none
  · have hready := hp.resolve_right (not_not_intro hop)
    cases i with
    | nop | swp | sav | neg => cases h; exact .inr ⟨rfl, rfl, hready⟩
    | mov | add | sub => cases hop
    | jmp | jez | jnz | jgz | jlz | jro => cases hj
  · obtain ⟨⟨_, ⟨hf, _, hpc, _⟩ | ⟨hrun, _, _, ⟨hw, hpc, _⟩ | ⟨hready, hpc⟩⟩⟩, _⟩ := exec_operandExit hop h
    · exact .inl ⟨hpc, .inl hf⟩
    · exact .inl ⟨hpc, .inr hw⟩
    · exact .inr ⟨hpc, hrun, hready⟩

/-- A core that executes is ready, or its instruction has the operand A it waits for (R99). -/
theorem State.Executes.ready_or_operandA {s : State} {w : Record} {i : Instr} (hw : s.Executes w)
    (hd : decode w = .decoded i) : s.phase = .ready ∨ i.operandA? ≠ none := by
  obtain ⟨hp, _⟩ | ⟨_, rfl, ho⟩ := hw
  · exact .inl hp
  · exact .inr (operandA_ne_none_of_outstanding hd ho)

/-- Settles O53: the step executes the record at PC, which lies inside the program, so that `PC + 4` does not wrap. -/
theorem sequentialPcAdvancesByFour : Obligations.SequentialPcAdvancesByFour := by
  intro s t w i ⟨_, _, _, hhold, _⟩ hr hf hd hj h
  have hfit := State.fetch_record_le hf
  cases step_effect h with
  | ended hne => exact absurd hr hne
  | halts => omega
  | undecoded => exact .inl ⟨rfl, .inl rfl⟩
  | executes _ hw hd' h =>
    cases (hw.fetch hhold).symm.trans hf
    cases hd'.symm.trans hd
    refine (exec_sequential (s := { s with ir := w }) hj (hw.ready_or_operandA hd) h).imp_right fun ⟨hpc, hrun, hready⟩ => ?_
    replace hpc : t.pc = s.pc + 4 := hpc
    have hlen : t.progLen = s.progLen := (exec_frame h).progLen
    have hnum : t.pc.toNat = s.pc.toNat + 4 := by
      rw [hpc]
      bv_omega
    exact ⟨hnum, by rwa [hnum, hlen], hrun.trans hr, hready⟩

/-! ### Faults are precise (R102, R124 to R126) -/

/-- The core has stopped with a fault code, and PC and the registers are still those of `s`. -/
def PreciseFault (s t : State) : Prop :=
  t.pc = s.pc ∧ t.acc = s.acc ∧ t.bak = s.bak ∧ t.last = s.last ∧ t.opa = s.opa ∧ t.faultCode ≠ .noFault ∧
    t.outstanding = none

theorem preciseFault_raiseFault (s : State) {c : FaultCode} (hc : c ≠ .noFault) (info : BitVec 64) :
    PreciseFault s (s.raiseFault c info) :=
  ⟨rfl, rfl, rfl, rfl, rfl, hc, outstanding_of_ready rfl⟩

/-- An effect of a validated instruction that faults does so before it writes a register: a destination is never refused once a
Value has been taken (R96). -/
theorem Effect.preciseFault {i : Instr} {s t : State} (h : Effect i s t)
    (hl : s.phase ≠ .ready → selectorsLegal i = true) (hr : s.runState = .running) (ht : t.runState = .faulted) :
    PreciseFault s t := by
  cases h with
  | outOfRange => exact preciseFault_raiseFault s (by decide) _
  | badSelector => exact preciseFault_raiseFault s (by decide) _
  | @accessFails q k rest => exact preciseFault_raiseFault (s.answered q (.err k) rest) (by decide) _
  | takes _ hl' _ _ hv => exact absurd ht (hv.not_faulted hl' hr)
  | reads hp _ _ _ hv => exact absurd ht (hv.not_faulted (hl (by simp [hp])) hr)
  | moves | issuesRead | waits | writes => cases hr.symm.trans ht

/-- An instruction that goes on has passed the check of its selectors (R96, R100). -/
theorem State.Executes.selectorsLegal {s : State} {w : Record} {i : Instr} (hw : s.Executes w) (hs : s.HoldConsistent)
    (hd : decode w = .decoded i) (hp : s.phase ≠ .ready) : selectorsLegal i = true := by
  obtain ⟨hready, _⟩ | ⟨_, rfl, _⟩ := hw
  · exact absurd hready hp
  · obtain ⟨_, _, hv⟩ := hs.resolve_left hp
    exact (irValidated_of_decode hd).symm.trans hv

/-- Settles O56: by the effect of the step; the invariant says that an instruction that goes on has passed the check of its
selectors. -/
theorem faultsArePrecise : Obligations.FaultsArePrecise := by
  intro s t ⟨_, _, _, hhold, _⟩ hr h ht
  cases step_effect h with
  | ended => cases hr.symm.trans ht
  | halts => cases ht
  | undecoded w info _ _ hc => exact preciseFault_raiseFault { s with ir := w } hc info
  | @executes w _ _ _ hw hd h =>
    exact (exec_effect h).preciseFault (s := { s with ir := w }) (hw.selectorsLegal hhold hd) hr ht

end Sys2Proof.Machine
end

section
/-! PROOF. NOP (42_data_movement.md R105). -/

namespace Sys2Proof.Machine

/-- Settles O13: no field is looked at, and `State.advance` moves PC alone. -/
theorem nopAdvancesPcOnly : Obligations.NopAdvancesPcOnly :=
  ⟨fun _ b1 b2 b3 h => decodeBytes_of_opcode .nop h b1 b2 b3, by decide, fun _ => rfl⟩

end Sys2Proof.Machine
end

section
/-! PROOF. JRO: the offset `JroTarget` gives under each policy, and what JRO does with it or without one (44_control_transfer.md R119). -/

namespace Sys2Proof.Machine

/-! ### JRO with a target and without one -/

theorem exec_jro_of_target {s : State} {p : BitVec 32} (h : jroTarget s.jroNegPolicy s.progLen s.acc = some p) :
    exec .jro s = .next { s with pc := p } := by
  simp only [exec, execJro, h]

theorem exec_jro_of_no_target {s : State} (h : jroTarget s.jroNegPolicy s.progLen s.acc = none) :
    exec .jro s = .next (s.raiseFault .jroRangeError (jroInfo s.acc)) := by
  simp only [exec, execJro, h]

/-! ### The target under each policy -/

theorem jroTarget_of_nonneg {a : Value} (h : 0 ≤ a.toInt) (policy : JroNegPolicy) (len : BitVec 32) :
    jroTarget policy len a = some (BitVec.ofInt 32 a.toInt) := if_pos h

theorem jroTarget_clampZero_of_neg {a : Value} (h : a.toInt < 0) (len : BitVec 32) :
    jroTarget .clampZero len a = some 0 := if_neg (Int.not_le.2 h)

theorem jroTarget_wrapModLen_of_neg {a : Value} (h : a.toInt < 0) (len : BitVec 32) :
    jroTarget .wrapModLen len a = some (BitVec.ofInt 32 (a.toInt % len.toNat)) := if_neg (Int.not_le.2 h)

theorem jroTarget_castUnsigned (len : BitVec 32) (a : Value) :
    jroTarget .castUnsigned len a = some (BitVec.ofInt 32 a.toInt) := ite_self _

/-! ### The target as a number: what PC's 32 bits keep of it -/

theorem toNat_ofInt32_of_nonneg {n : Int} (h0 : 0 ≤ n) (h1 : n < 2 ^ 32) : ((BitVec.ofInt 32 n).toNat : Int) = n := by
  rw [BitVec.toNat_ofInt]
  omega

theorem toNat_ofInt32_of_neg {n : Int} (h0 : n < 0) (h1 : -2 ^ 32 ≤ n) :
    ((BitVec.ofInt 32 n).toNat : Int) = 2 ^ 32 + n := by
  rw [BitVec.toNat_ofInt]
  omega

/-- Settles O19: the policies speak of a negative ACC only, and 16 bits fit into PC. -/
theorem jroJumpsToAcc : Obligations.JroJumpsToAcc := by
  intro s h
  have hlt : s.acc.toInt < 2 ^ 15 := BitVec.toInt_lt
  exact ⟨_, exec_jro_of_target (jroTarget_of_nonneg h ..), toNat_ofInt32_of_nonneg h (by omega)⟩

/-- Settles O20: a policy at a time; the remainder by PROG_LEN lies below PROG_LEN, and the cast keeps ACC modulo 2^32. -/
theorem jroNegativeFollowsPolicy : Obligations.JroNegativeFollowsPolicy := by
  intro s h
  refine ⟨fun hp => ?fault, fun hp => ?clampZero, fun hp hlen => ?wrapModLen, fun hp => ?castUnsigned⟩
  case fault =>
    rw [exec_jro_of_no_target ((jroTarget_eq_none_iff ..).2 ⟨h, hp⟩), BitVec.ofNat_toNat]
    rfl
  case clampZero => exact exec_jro_of_target (hp ▸ jroTarget_clampZero_of_neg h _)
  case wrapModLen =>
    have h0 : 0 ≤ s.acc.toInt % s.progLen.toNat := Int.emod_nonneg _ (by omega)
    have h1 : s.acc.toInt % s.progLen.toNat < s.progLen.toNat := Int.emod_lt_of_pos _ (by omega)
    exact ⟨_, exec_jro_of_target (hp ▸ jroTarget_wrapModLen_of_neg h _), toNat_ofInt32_of_nonneg h0 (by omega)⟩
  case castUnsigned =>
    have hge : -2 ^ 15 ≤ s.acc.toInt := BitVec.le_toInt _
    exact ⟨_, exec_jro_of_target (hp ▸ jroTarget_castUnsigned ..), toNat_ofInt32_of_neg h (by omega)⟩

end Sys2Proof.Machine
end

section
/-! PROOF. FAULT_INFO as numbers, and the fault of an illegal opcode (30_encoding.md R66; 41_fetch_execute.md R94, R95;
60_exceptions.md R123, R124). -/

namespace Sys2Proof.Machine

/-! ### FAULT_INFO as a number, per fault (R123) -/

theorem toNat_decodeInfo (b : Byte) : (decodeInfo b).toNat = b.toNat :=
  BitVec.toNat_setWidth_of_le (by decide)

theorem toNat_jroInfo (a : Value) : (jroInfo a).toNat = a.toNat :=
  BitVec.toNat_setWidth_of_le (by decide)

theorem toNat_boundsInfo (pc len : BitVec 32) : (boundsInfo pc len).toNat = len.toNat * 2 ^ 32 + pc.toNat :=
  toNat_append_add len pc

theorem toNat_selFieldBit (f : SelField) : (selFieldBit f).toNat = if f = .dst then 1 else 0 := by cases f <;> rfl

theorem toNat_directionBit (dir : Direction) : (directionBit dir).toNat = if dir = .write then 1 else 0 := by
  cases dir <;> rfl

theorem toNat_portBit (ch : Port) : (portBit ch).toNat = if ch = .down then 1 else 0 := by cases ch <;> rfl

theorem toNat_selectorInfo (f : SelField) (b : Byte) :
    (selectorInfo f b).toNat = (if f = .dst then 256 else 0) + b.toNat := by
  rw [selectorInfo_eq_ofNat, BitVec.toNat_ofNat, toNat_selFieldBit]
  split <;> omega

theorem toNat_portInfo (ch : Port) (dir : Direction) (k : BitVec 32) :
    (portInfo ch dir k).toNat =
      k.toNat * 2 ^ 32 + (if dir = .write then 2 else 0) + (if ch = .down then 1 else 0) := by
  simp only [portInfo, toNat_append_add, BitVec.toNat_ofNat, toNat_directionBit, toNat_portBit]
  split <;> omega

/-- Settles O32: each packing is a concatenation of the fields, or the one field widened. -/
theorem faultInfoIsPacked : Obligations.FaultInfoIsPacked :=
  ⟨toNat_decodeInfo, toNat_portInfo, toNat_selectorInfo, toNat_boundsInfo, toNat_jroInfo⟩

/-- Settles O40: the four bytes are the record fetched, and no opcode has its number. -/
theorem illegalOpcodeFaults : Obligations.IllegalOpcodeFaults := by
  intro s b0 b1 b2 b3 hr hp hm hop
  have hd : decode (recordOf b0 b1 b2 b3) = .illegal b0 :=
    (decode_recordOf b0 b1 b2 b3).trans (decodeBytes_of_illegal hop b1 b2 b3)
  rw [step_of_illegal hr hp (State.fetch_of_memRead hm) hd, BitVec.ofNat_toNat]
  rfl

end Sys2Proof.Machine
end

section
/-! PROOF. The host's reset (70_reset_and_hazards.md R141, R145; 10_state.md R28). -/

namespace Sys2Proof.Machine

/-- A reset leaves every byte of the program in place (R28, R141). -/
theorem hostReset_byteAt (s : State) (a : Nat) : s.hostReset.byteAt a = s.byteAt a := rfl

/-- A core that is READY waits for no device, whatever record IR holds (R24). -/
theorem State.outstanding_eq_none_of_ready {s : State} (hready : s.phase = .ready) : s.outstanding = none := by
  refine Option.eq_none_iff_forall_ne_some.mpr fun q hq => ?_
  obtain ⟨hwait, -⟩ | ⟨hwait, -⟩ := s.outstanding_cases hq
  · exact Phase.noConfusion (hready.symm.trans hwait)
  · exact Phase.noConfusion (hready.symm.trans hwait)

/-- The reset makes the core READY, so the transaction that was outstanding is abandoned (R145). -/
theorem hostReset_outstanding (s : State) : s.hostReset.outstanding = none := State.outstanding_eq_none_of_ready rfl

/-- The registers and STATUS are those of `State.reset`; the one part of the invariant that speaks of the kept PROG_LEN and of no
cell is the end of a halted run, and after a reset the core runs. -/
theorem hostReset_inv {s : State} (hprog : s.ProgramCanonical) : s.hostReset.Inv := by
  obtain ⟨hvalues, hstatus, -, -, -⟩ := resetMeetsTheInvariant
  have hend : s.hostReset.EndConsistent := ⟨fun hhalted => RunState.noConfusion hhalted, fun _ => rfl⟩
  have hhold : s.hostReset.HoldConsistent := .inl rfl
  exact ⟨hvalues, hstatus, hend, hhold, hprog⟩

/-- Settles O45: the reset values are those of `State.reset`, the program and the parameters are fields the reset copies. -/
theorem hostResetStartsAFreshRun : Obligations.HostResetStartsAFreshRun := by
  obtain ⟨hpc, hacc, hbak, hlast, hstatus, -⟩ := resetValues
  intro s
  exact ⟨hpc, hacc, hbak, hlast, hstatus, hostReset_outstanding s, hostReset_byteAt s, rfl, rfl, rfl, hostReset_inv⟩

end Sys2Proof.Machine
end
